-- ==== Sys2Proof/Word.lean ====
section
/-! DEFINITION. The machine's word types (spec 00_scope R6, R17, R18): every value is an unsigned bit vector. -/

namespace Sys2Proof

/-- Contents of a general register or of one memory location: 8 bits (R6 `REG_BITS`). -/
abbrev Byte := BitVec 8

/-- An instruction word, `pc`, `I` or a stack entry: 16 bits (R6 `PC_BITS`, `I_BITS`). -/
abbrev Word := BitVec 16

/-- The 12-bit address field NNN (R6 `ADDR_BITS`, R91). -/
abbrev Addr := BitVec 12

/-- A 4-bit field of an instruction word (R17). -/
abbrev Nibble := BitVec 4

/-- `zext_16` of R18: an address field widened with zeros on the left. -/
def zext16 (a : Addr) : Word := a.setWidth 16

end Sys2Proof
end

