-- ==== Sys2Proof/Config.lean ====
section
/-! DEFINITION. The implementation parameters of spec 00_scope R6, each under the spec's own name, and the one open
reset value (R7, `I_RESET`) at the value the model names for it. -/

namespace Sys2Proof.Config

/-- `MEM_SIZE`: bytes of memory, addresses 0 to 4095. -/
abbrev memSize : Nat := 4096

/-- `LOAD_OFFSET`: address of the first ROM byte and reset value of `pc`. -/
abbrev loadOffset : Nat := 0x200

/-- `ROM_MAX` = `MEM_SIZE` − `LOAD_OFFSET`: the most bytes a ROM load stores. -/
abbrev romMax : Nat := memSize - loadOffset

/-- `NUM_REGS`: count of general registers. -/
abbrev numRegs : Nat := 16

/-- `STACK_DEPTH`: entries of the inert stack. -/
abbrev stackDepth : Nat := 16

/-- `DISP_W`: display columns. -/
abbrev dispW : Nat := 64

/-- `DISP_H`: display rows. -/
abbrev dispH : Nat := 32

/-- `INSN_BYTES`: length of every instruction. -/
abbrev insnBytes : Nat := 2

/-- `SPRITE_W`: pixels of a sprite row. -/
abbrev spriteW : Nat := 8

/-- `SPRITE_H_MAX`: rows of the tallest sprite. -/
abbrev spriteHMax : Nat := 15

/-- `FLAG_REG`: the register DRW writes as collision flag. -/
abbrev flagReg : Nat := 15

/-- `I` in `State.reset`. DESIGN CHOICE, unsafe (notes/assumptions/1.md): the spec leaves `I_RESET` an open parameter
(R38). No statement rests on this value: statements about reset and launch take `I_RESET` as an argument. -/
def iReset : Word := 0x0000#16

end Sys2Proof.Config
end

