-- ==== Sys2Proof/Syntax.lean ====
section
/-! DEFINITION. The instructions: one constructor per row of spec/opcode_table.json (spec 30_encoding R98). -/

namespace Sys2Proof

/-- The number of a general register: any value of a 4-bit field X or Y (R31, R94). -/
abbrev Reg := Fin 16

/-- One constructor per row of the dispatch table of R98, the catch-all row included. -/
inductive Instr where
  /-- `CLS`. `x` is field X, which the instruction ignores (R99, R141); it is kept so that no bit of the word is lost
  (notes/assumptions/22.md). -/
  | cls (x : Nibble)
  /-- `JP addr` (R150). -/
  | jp (addr : Addr)
  /-- `LD Vx, byte` (R160). -/
  | ldVxByte (x : Reg) (nn : Byte)
  /-- `ADD Vx, byte` (R161). -/
  | addVxByte (x : Reg) (nn : Byte)
  /-- `LD I, addr` (R170). -/
  | ldI (addr : Addr)
  /-- `DRW Vx, Vy, N` (R180). -/
  | drw (x y : Reg) (n : Nibble)
  /-- A word that matches no row of the table (R101, R200); the word itself goes into the diagnostic event. -/
  | unknown (w : Word)
deriving DecidableEq, Repr

end Sys2Proof
end

