-- ==== Sys2Proof/WellFormed.lean ====
section
/-! DEFINITION. Well-formed instructions. The operand fields' types already hold exactly the values an encoding
admits; the one check left is that an unknown instruction carries a word the dispatch table does not list. The table is
written here as R98 gives it, by mask and match, independently of the decoder's field tests. -/

namespace Sys2Proof

/-- A row of the opcode map: word `w` selects it iff `(w & mask) = pat` (R98). -/
structure OpcodeRow where
  mask : Word
  pat  : Word
deriving DecidableEq, Repr

/-- R98: "word `w` selects the row iff `(w & mask) = match`". -/
def OpcodeRow.selects (r : OpcodeRow) (w : Word) : Bool := (w &&& r.mask) == r.pat

def rowCls       : OpcodeRow := ⟨0xF0FF#16, 0x00E0#16⟩
def rowJp        : OpcodeRow := ⟨0xF000#16, 0x1000#16⟩
def rowLdVxByte  : OpcodeRow := ⟨0xF000#16, 0x6000#16⟩
def rowAddVxByte : OpcodeRow := ⟨0xF000#16, 0x7000#16⟩
def rowLdI       : OpcodeRow := ⟨0xF000#16, 0xA000#16⟩
def rowDrw       : OpcodeRow := ⟨0xF000#16, 0xD000#16⟩

/-- The six instruction rows of R98 in the table's order. -/
def opcodeRows : List OpcodeRow := [rowCls, rowJp, rowLdVxByte, rowAddVxByte, rowLdI, rowDrw]

/-- The words of the catch-all row: those that match none of the six rows (R98, R101). -/
def isUnknownWord (w : Word) : Bool := opcodeRows.all fun r => !r.selects w

/-- An instruction that some word encodes. -/
def Instr.wf : Instr → Bool
  | .cls _         => true
  | .jp _          => true
  | .ldVxByte _ _  => true
  | .addVxByte _ _ => true
  | .ldI _         => true
  | .drw _ _ _     => true
  | .unknown w     => isUnknownWord w

end Sys2Proof
end

