-- ==== Sys2Proof/Decode.lean ====
section
/-! DEFINITION. Decoding (spec 30_encoding R90 to R103, 40_fetch_decode_execute R122, R123) and, after it, the encoder
of R103. Decoding two bytes is total and never fails (R102); only a byte list too short to hold a word is rejected. -/

namespace Sys2Proof

/-! ### Byte order (20_memory R62) -/

/-- `w = byte0 ++ byte1`: the byte at the lower address is the more significant. -/
def joinBytes (byte0 byte1 : Byte) : Word := byte0 ++ byte1

/-- `byte0 = w[15:8]` (R17). -/
def hiByte (w : Word) : Byte := w.extractLsb' 8 8

/-- `byte1 = w[7:0]` (R17). -/
def loByte (w : Word) : Byte := w.extractLsb' 0 8

/-! ### Fields (R91, R122) -/

/-- The six fields, all computed for every word. -/
structure Fields where
  cls : Nibble
  x   : Nibble
  y   : Nibble
  n   : Nibble
  nn  : Byte
  nnn : Addr
deriving DecidableEq, Repr

/-- Bits 7:4 of a byte, the source's "high nibble" (R17). -/
def hiNibble (b : Byte) : Nibble := b.extractLsb' 4 4

/-- Bits 3:0 of a byte, the source's "low nibble" (R17). -/
def loNibble (b : Byte) : Nibble := b.extractLsb' 0 4

/-- `Decode` of R122; `NNN = (X << 8) | NN` is `X ++ NN` (R91, R93). -/
def decodeFields (byte0 byte1 : Byte) : Fields where
  cls := hiNibble byte0
  x   := loNibble byte0
  y   := hiNibble byte1
  n   := loNibble byte1
  nn  := byte1
  nnn := loNibble byte0 ++ byte1

/-! ### Dispatch by class (R99, R100, R123) -/

/-- The arm `Dispatch` of R123 selects; `w` is the whole word, which the diagnostic of an unknown instruction holds. -/
def selectInstr (f : Fields) (w : Word) : Instr :=
  if f.cls = 0x0#4 then
    if f.y = 0xE#4 ∧ f.n = 0x0#4 then .cls f.x else .unknown w
  else if f.cls = 0x1#4 then .jp f.nnn
  else if f.cls = 0x6#4 then .ldVxByte f.x.toFin f.nn
  else if f.cls = 0x7#4 then .addVxByte f.x.toFin f.nn
  else if f.cls = 0xA#4 then .ldI f.nnn
  else if f.cls = 0xD#4 then .drw f.x.toFin f.y.toFin f.n
  else .unknown w

/-- The instruction of two fetched bytes, for any two bytes (R102). -/
def decodeBytes (byte0 byte1 : Byte) : Instr :=
  selectInstr (decodeFields byte0 byte1) (joinBytes byte0 byte1)

/-- Why a byte list holds no instruction. -/
inductive DecodeError where
  /-- Fewer than the two bytes of an instruction (R90). Fetch never asks for this: it reads two bytes or faults. -/
  | truncated
deriving DecidableEq, Repr

/-- Decode the instruction at the head of a byte list and give back the rest (R90: always exactly two bytes). -/
def decode : List Byte → Except DecodeError (Instr × List Byte)
  | byte0 :: byte1 :: rest => .ok (decodeBytes byte0 byte1, rest)
  | [_]                    => .error .truncated
  | []                     => .error .truncated

/-! ### Encoding (R103) -/

/-- The word of an instruction, by the encoding functions of R103; an unknown instruction is its own word (R104). -/
def encodeWord : Instr → Word
  | .cls x          => 0x00E0#16 ||| (x.setWidth 16 <<< 8)
  | .jp a           => 0x1000#16 ||| a.setWidth 16
  | .ldVxByte x nn  => 0x6000#16 ||| ((BitVec.ofNat 16 x.val) <<< 8) ||| nn.setWidth 16
  | .addVxByte x nn => 0x7000#16 ||| ((BitVec.ofNat 16 x.val) <<< 8) ||| nn.setWidth 16
  | .ldI a          => 0xA000#16 ||| a.setWidth 16
  | .drw x y n      =>
      0xD000#16 ||| ((BitVec.ofNat 16 x.val) <<< 8) ||| ((BitVec.ofNat 16 y.val) <<< 4) ||| n.setWidth 16
  | .unknown w      => w

/-- The bytes of a word in memory, the more significant first (20_memory R62). -/
def wordBytes (w : Word) : List Byte := [hiByte w, loByte w]

/-- The bytes of an instruction as it stands in memory. -/
def encode (i : Instr) : List Byte := wordBytes (encodeWord i)

/-! ### The opcode table's numbering -/

/-- The 16-bit word of `w` read in the opcode table's numbering: bit 0 is the least significant bit of the word, and
every bit from `nbits` on is 0 (notes/assumptions/21.md). -/
def tableWord (nbits w : Nat) : Word := BitVec.ofNat 16 (w % 2 ^ nbits)

/-- What the decoder reads from the bytes of that word, laid out as memory holds them. -/
def decodeTableWord (nbits w : Nat) : Option Instr :=
  match decode (wordBytes (tableWord nbits w)) with
  | .ok (i, _) => some i
  | .error _   => none

end Sys2Proof
end

