-- ==== Sys2Proof/Machine/State.lean ====
section
/-! DEFINITION. The machine's state, spec 10_state R30 element by element, its value at reset (R48, 70 R240), and the
reasons a step can stop. -/

namespace Sys2Proof.Machine

/-- Why a memory access faulted (R45, 60_exceptions R215). -/
inductive Cause where
  /-- A fetch with `pc > 0x0FFE` (40 R121). -/
  | fetchOutOfRange
  /-- A DRW with N > 0 and `I + N − 1 > 4095` (45 R181). -/
  | spriteReadOutOfRange
deriving DecidableEq, Repr

/-- The `status` element (R45): sticky, written by a faulting step only, cleared by reset only (R217). -/
inductive Status where
  | running
  | faulted (cause : Cause) (addr : Word)
deriving DecidableEq, Repr

/-- The kinds of diagnostic the engine emits (60_exceptions R215). -/
inductive DiagKind where
  | unknownInstruction
deriving DecidableEq, Repr

/-- The events of ports DIAG and REFRESH (00_scope R14, R15, R21). -/
inductive Event where
  /-- `Diag(UnknownInstruction, word, addr)`. -/
  | diag (kind : DiagKind) (word addr : Word)
  /-- `Refresh`. -/
  | refresh
deriving DecidableEq, Repr

/-- The display: 64 columns of 32 one-bit cells, `true` for on, so that `disp[x][y]` is `Disp[x][y]` (R41, R42). -/
abbrev Display := Vector (Vector Bool 32) 64

/-- Memory: (address, byte) pairs, addresses strictly rising, no byte 0; an unlisted address reads 0x00, its reset
content (R48, 20_memory R67). `Memory.wf` in Ops says so. -/
abbrev Memory := List Host.Cell

/-- The state of the machine (R30). -/
structure State where
  /-- `V[0]` to `V[15]`; `V[15]` is also the collision flag (R31, R32). -/
  v      : Vector Byte 16
  /-- The program counter (R33). -/
  pc     : Word
  /-- The index register `I` (R37). -/
  i      : Word
  /-- The inert stack (R40). -/
  stack  : Vector Word 16
  /-- The display buffer (R41). -/
  disp   : Display
  /-- The memory store (20_memory R60). -/
  mem    : Memory
  /-- `Running` or `Faulted(cause, addr)` (R45). -/
  status : Status
  /-- THE MODEL'S OWN: the events emitted so far, oldest first. The spec's events are outputs (R47), which an outcome
  has no room for; no step reads this field (notes/assumptions/4.md). -/
  events : List Event
deriving DecidableEq, Repr

/-- Why a step would end without a next state. The engine's own faults are not here: a `MemoryFault` is a next state
whose `status` is `faulted` (60_exceptions R216, notes/assumptions/2.md). -/
inductive Fault where
  /-- The memory port was asked for an address above 4095, where `MemRead` is not defined (00_scope R20, 20_memory R64).
  Raised by `Memory.readThen` and by the row reads of `execDrw`; no step reaches it, because every access is range-checked
  first (20_memory R69). Safe (notes/assumptions/6.md). -/
  | outsideMemory (addr : Nat)
deriving DecidableEq, Repr

/-- Why a step would refuse an instruction. -/
inductive Refusal where
  /-- Raised by an arm of `exec` whose instruction has no meaning yet; there is none. Safe. -/
  | notModelled (mnemonic : String)
deriving DecidableEq, Repr

/-- What a meaning or a step answers. -/
abbrev Answer := Host.Outcome State Fault Refusal

/-- The state after reset for a given `I_RESET` (R38, R48, 70 R240). -/
def State.resetWith (iReset : Word) : State where
  v      := Vector.replicate 16 0x00#8
  pc     := 0x0200#16
  i      := iReset
  stack  := Vector.replicate 16 0x0000#16
  disp   := Vector.replicate 64 (Vector.replicate 32 false)
  mem    := []
  status := .running
  events := []

/-- The machine right after reset, with `I` at the value notes/assumptions/1.md names. -/
def State.reset : State := State.resetWith Config.iReset

end Sys2Proof.Machine
end

