-- ==== Sys2Proof/Machine/Ops.lean ====
section
/-! DEFINITION. The named operations over memory, registers, display, events and status. TAKING A FAULT, the only
exception of the machine, is `State.raiseFault`; there is no return from it (60_exceptions R217). -/

namespace Sys2Proof.Machine

/-! ### Memory (20_memory) -/

/-- The byte held at an address: the listed one, or 0x00. -/
def Memory.cell : Memory → Nat → Byte
  | [], _          => 0x00#8
  | (k, b) :: m, a => if k = a then b else Memory.cell m a

/-- `MemRead(a, 1)`, defined for 0 ≤ a ≤ 4095 only (00_scope R20, 20_memory R64). -/
def Memory.read (m : Memory) (a : Nat) : Option Byte :=
  if a < Config.memSize then some (m.cell a) else none

/-- Put a byte at an address, in canonical form. -/
def Memory.put : Memory → Nat → Byte → Memory
  | [], a, b           => if b = 0x00#8 then [] else [(a, b)]
  | (k, c) :: m, a, b =>
    if a < k then (if b = 0x00#8 then (k, c) :: m else (a, b) :: (k, c) :: m)
    else if a = k then (if b = 0x00#8 then m else (a, b) :: m)
    else (k, c) :: Memory.put m a b

/-- The host's write of one byte through port LOAD (00_scope R12). The engine itself never writes memory (20_memory R66).
An address above 4095 does not exist and nothing is written there (notes/assumptions/13.md). -/
def Memory.write (m : Memory) (a : Nat) (b : Byte) : Memory :=
  if a < Config.memSize then m.put a b else m

/-- Canonical form from address `lo` on. -/
def Memory.wfFrom : Nat → Memory → Bool
  | _, []           => true
  | lo, (k, b) :: m => decide (lo ≤ k) && decide (k < Config.memSize) && decide (b ≠ 0x00#8) && Memory.wfFrom (k + 1) m

/-- Canonical form: addresses strictly rising, all in 0 to 4095, no listed byte equal to what an unlisted address reads as. -/
def Memory.wf (m : Memory) : Bool := Memory.wfFrom 0 m

/-- Read one byte and go on with it; outside memory there is no such byte. -/
def Memory.readThen (m : Memory) (a : Nat) (k : Byte → Answer) : Answer :=
  match m.read a with
  | some b => k b
  | none   => .fault (.outsideMemory a)

/-- `n` successive bytes from address `a` on: the sprite rows `mem[a]`, `mem[a+1]`, … in that order (20_memory R65). -/
def Memory.readRows (m : Memory) (a : Nat) : Nat → Option (List Byte)
  | 0     => some []
  | n + 1 =>
    match m.read a with
    | none   => none
    | some b =>
      match Memory.readRows m (a + 1) n with
      | none    => none
      | some bs => some (b :: bs)

/-! ### Registers (10_state R19, R31, R33, R37) -/

/-- `V[x]`. -/
def State.readReg (s : State) (x : Reg) : Byte := s.v[x]

/-- `V[x] <- b`; no register is hardwired (R31). -/
def State.writeReg (s : State) (x : Reg) (b : Byte) : State := { s with v := s.v.set x b }

/-- `pc <- w`. -/
def State.setPc (s : State) (w : Word) : State := { s with pc := w }

/-- The `pc += 2` of fetch, which comes before the arm's effect (R34, R124). -/
def State.advance (s : State) : State := s.setPc (s.pc + 2#16)

/-- `I <- w`. -/
def State.setI (s : State) (w : Word) : State := { s with i := w }

/-! ### Display (10_state R41 to R43) -/

/-- `Disp[x][y]`. -/
def Display.get (d : Display) (x : Fin 64) (y : Fin 32) : Bool := (d[x])[y]

/-- `Disp[x][y] <- c`. -/
def Display.put (d : Display) (x : Fin 64) (y : Fin 32) (c : Bool) : Display := d.set x ((d[x]).set y c)

/-- Every cell 0. -/
def Display.blank : Display := Vector.replicate 64 (Vector.replicate 32 false)

/-- Set every display cell to 0; the order of the cells is unobservable (41 R140). -/
def State.clearDisplay (s : State) : State := { s with disp := Display.blank }

/-- `Disp[x][y] <- Disp[x][y] xor 1`. -/
def State.toggleCell (s : State) (x : Fin 64) (y : Fin 32) : State :=
  { s with disp := Display.put s.disp x y (Display.get s.disp x y ^^ true) }

/-! ### Events (00_scope R14, R15, R21) -/

/-- `emit e`: append the event to the output. -/
def State.emit (s : State) (e : Event) : State := { s with events := s.events ++ [e] }

/-! ### Taking a fault (00_scope R21, 60_exceptions R216) -/

/-- The lowest address above 4095 that an access starting at `w` needs: `max(w, 0x1000)` (60_exceptions R215). -/
def faultAddr (w : Word) : Word := BitVec.ofNat 16 (max w.toNat 0x1000)

/-- `raise MemoryFault(cause, addr)`, applied to the state at the START of the step, so that every change the step had
made is discarded and only `status` changes; no event, no handler, `pc` still at the faulting instruction. -/
def State.raiseFault (s : State) (c : Cause) (addr : Word) : State := { s with status := .faulted c addr }

end Sys2Proof.Machine
end

