-- ==== Sys2Proof/Machine/Operands.lean ====
section
/-! DEFINITION. Operand forms: immediates and the coordinates and addresses of DRW (spec 30_encoding R93, R94,
43 R162, 45 R180). Every value is unsigned and every sum is an exact natural number until it is reduced. -/

namespace Sys2Proof.Machine

/-- `addr` stored into a 16-bit register: zero-extended (R93). -/
def addrOperand (nnn : Addr) : Word := zext16 nnn

/-- `vx mod 64`: the base column (45 R180 step 1). -/
def baseColumn (vx : Byte) : Nat := vx.toNat % Config.dispW

/-- `vy mod 32`: the base row (45 R180 step 1). -/
def baseRow (vy : Byte) : Nat := vy.toNat % Config.dispH

/-- `(x + b) mod 64`: the column of offset `b` (45 R180 step 4). -/
def pixelColumn (x b : Nat) : Fin 64 := Fin.ofNat 64 (x + b)

/-- `(y + r) mod 32`: the display row of sprite row `r` (45 R180 step 4). -/
def pixelRow (y r : Nat) : Fin 32 := Fin.ofNat 32 (y + r)

/-- Bit `7 − b` of a sprite byte, which controls column offset `b`, leftmost first (45 R183). -/
def spriteBit (row : Byte) (b : Nat) : Bool := row.getLsbD (7 - b)

/-- Whether a sprite of `n` rows at `I` needs an address above 4095: `n > 0 and I + n − 1 > 4095`, in unbounded
arithmetic (45 R181, 20_memory R70). -/
def spriteOutOfRange (i : Word) (n : Nibble) : Bool :=
  decide (0 < n.toNat) && decide (4095 < i.toNat + n.toNat - 1)

/-- The cells under the set bits of one sprite row, leftmost first (45 R180 step 4). -/
def rowCells (x y r : Nat) (row : Byte) : List (Fin 64 × Fin 32) :=
  ((List.range Config.spriteW).filter (spriteBit row)).map fun b => (pixelColumn x b, pixelRow y r)

/-- The cells under the set bits of the sprite rows from row number `r` on, top to bottom (45 R180 step 3). -/
def cellsFrom (x y : Nat) : Nat → List Byte → List (Fin 64 × Fin 32)
  | _, []          => []
  | r, row :: rows => rowCells x y r row ++ cellsFrom x y (r + 1) rows

end Sys2Proof.Machine
end

