-- ==== Sys2Proof/Machine/Flags.lean ====
section
/-! DEFINITION. The machine's only flag, the collision flag, which IS general register `V[15]` (spec 10_state R32); no
other instruction than DRW computes a flag, and nothing reads it as one. -/

namespace Sys2Proof.Machine

/-- The register used as collision flag (R6 `FLAG_REG`). -/
def flagReg : Reg := ⟨Config.flagReg, by decide⟩

/-- `V[15] <- 0` (45 R180 step 2). -/
def State.clearCollision (s : State) : State := s.writeReg flagReg 0x00#8

/-- `V[15] <- 1` (45 R180 step 5). -/
def State.setCollision (s : State) : State := s.writeReg flagReg 0x01#8

/-- Step 5: a cell that is on, about to be turned off, sets the flag. -/
def State.noteCollision (s : State) (x : Fin 64) (y : Fin 32) : State :=
  if Display.get s.disp x y then s.setCollision else s

/-- Steps 5 and 6 for one set sprite bit: note the collision, then toggle the cell. -/
def State.plot (s : State) (c : Fin 64 × Fin 32) : State := (s.noteCollision c.1 c.2).toggleCell c.1 c.2

/-- Steps 5 and 6 for each cell in turn. -/
def State.plotAll (s : State) (cs : List (Fin 64 × Fin 32)) : State := cs.foldl State.plot s

end Sys2Proof.Machine
end

