-- ==== Sys2Proof/Machine/DisplayClear.lean ====
section
/-! DEFINITION. Display clear (spec 41_cls). A meaning runs from the state at the START of the step and holds the whole
step's effect, fetch's `pc += 2` included (notes/assumptions/5.md). -/

namespace Sys2Proof.Machine

/-- `CLS` (R140 to R142): every display cell 0. Field X is ignored, `V[15]` is not touched, no event. -/
def execCls (_x : Nibble) (s : State) : Answer := .next s.advance.clearDisplay

end Sys2Proof.Machine
end

