-- ==== Sys2Proof/Machine/Index.lean ====
section
/-! DEFINITION. Index register load (spec 44_ld_i_addr). -/

namespace Sys2Proof.Machine

/-- `LD I, addr` (R170): `I <- zext_16(NNN)`; the address is not checked here. -/
def execLdI (addr : Addr) (s : State) : Answer := .next (s.advance.setI (addrOperand addr))

end Sys2Proof.Machine
end

