-- ==== Sys2Proof/Machine/Jump.lean ====
section
/-! DEFINITION. Control transfer (spec 42_jp). -/

namespace Sys2Proof.Machine

/-- `JP addr` (R150): `pc <- zext_16(NNN)`, overwriting the advanced `pc`; the target is not checked. -/
def execJp (addr : Addr) (s : State) : Answer := .next (s.advance.setPc (addrOperand addr))

end Sys2Proof.Machine
end

