-- ==== Sys2Proof/Machine/RegisterImmediate.lean ====
section
/-! DEFINITION. Register-immediate operations (spec 43_ld_add_vx_byte). -/

namespace Sys2Proof.Machine

/-- `LD Vx, byte` (R160): `V[X] <- NN`. -/
def execLdVxByte (x : Reg) (nn : Byte) (s : State) : Answer := .next (s.advance.writeReg x nn)

/-- `ADD Vx, byte` (R161): `V[X] <- (V[X] + NN) mod 256`; the carry is discarded and no flag is written. -/
def execAddVxByte (x : Reg) (nn : Byte) (s : State) : Answer := .next (s.advance.writeReg x (s.readReg x + nn))

end Sys2Proof.Machine
end

