-- ==== Sys2Proof/Machine/Sprite.lean ====
section
/-! DEFINITION. The XOR sprite renderer (spec 45_drw). -/

namespace Sys2Proof.Machine

/-- Steps 1 to 7 of R180 on the rows read: the coordinates come from the state before `V[15]` is cleared (R182). -/
def State.drawSprite (s : State) (x y : Reg) (rows : List Byte) : State :=
  (s.advance.clearCollision.plotAll
    (cellsFrom (baseColumn (s.readReg x)) (baseRow (s.readReg y)) 0 rows)).emit .refresh

/-- `DRW Vx, Vy, N` (R180, R181): the range check comes before any change; then the sprite is drawn. Memory is constant
and reads have no effect, so the rows are read before the first cell is toggled (20_memory R65, notes/assumptions/15.md).
The `outsideMemory` arm is never reached: the range check has passed (notes/assumptions/6.md). -/
def execDrw (x y : Reg) (n : Nibble) (s : State) : Answer :=
  if spriteOutOfRange s.i n then .next (s.raiseFault .spriteReadOutOfRange (faultAddr s.i))
  else
    match s.mem.readRows s.i.toNat n.toNat with
    | some rows => .next (s.drawSprite x y rows)
    | none      => .fault (.outsideMemory s.i.toNat)

end Sys2Proof.Machine
end

