-- ==== Sys2Proof/Machine/Unknown.lean ====
section
/-! DEFINITION. Every other word (spec 46_unknown): a two-byte no-operation with a diagnostic. -/

namespace Sys2Proof.Machine

/-- An unknown instruction (R200): nothing changes but `pc`, and `Diag(UnknownInstruction, w, a)` is emitted, `a` being
the address the word was fetched from, which is `pc` at the start of the step. -/
def execUnknown (w : Word) (s : State) : Answer := .next (s.advance.emit (.diag .unknownInstruction w s.pc))

end Sys2Proof.Machine
end

