-- ==== Sys2Proof/Machine/Fetch.lean ====
section
/-! DEFINITION. Fetch (spec 40_fetch_decode_execute R121), and placing a word where fetch reads it. -/

namespace Sys2Proof.Machine

/-- Read the two bytes at `pc` and `pc + 1` and go on with them; with `pc > 0x0FFE` the step faults instead. The
`pc += 2` of fetch is `State.advance`, applied by each meaning (notes/assumptions/5.md). -/
def fetchThen (s : State) (k : Byte → Byte → Answer) : Answer :=
  if 0x0FFE < s.pc.toNat then .next (s.raiseFault .fetchOutOfRange (faultAddr s.pc))
  else
    s.mem.readThen s.pc.toNat fun byte0 =>
      s.mem.readThen (s.pc.toNat + 1) fun byte1 => k byte0 byte1

/-- `s` with the word `w` in memory at `pc`, the more significant byte first, and the machine running: what the next step
needs in order to fetch `w`. It needs `pc ≤ 0x0FFE` too, as after reset; above that no instruction can be fetched. -/
def State.placeWord (s : State) (w : Word) : State :=
  { s with
    mem := (s.mem.write s.pc.toNat (hiByte w)).write (s.pc.toNat + 1) (loByte w)
    status := .running }

end Sys2Proof.Machine
end

