-- ==== Sys2Proof/Machine/Step.lean ====
section
/-! DEFINITION. One step: what port TICK makes the engine do (spec 00_scope R9, 40_fetch_decode_execute R120). -/

namespace Sys2Proof.Machine

/-- `Step()` of R120. A faulted machine has no step: a tick changes nothing and emits nothing (60_exceptions R217,
notes/assumptions/3.md). -/
def step (s : State) : Host.Outcome State Fault Refusal :=
  match s.status with
  | .faulted _ _ => .next s
  | .running     => fetchThen s fun byte0 byte1 => exec (decodeBytes byte0 byte1) s

/-- `s` with the opcode table's word `w` placed where `step` fetches its next instruction (notes/assumptions/21.md). -/
def State.withFetchWord (s : State) (nbits w : Nat) : State := s.placeWord (tableWord nbits w)

end Sys2Proof.Machine
end

