-- ==== Sys2Proof/Machine/Loader.lean ====
section
/-! DEFINITION. The host's ROM loader as the engine sees it (spec 20_memory R75 to R78, 60_exceptions R213) and the
launch state (70_reset_and_hazards R244). -/

namespace Sys2Proof.Machine

/-- Memory that holds the given bytes from address `a` on and zero elsewhere, in canonical form. -/
def Memory.imageFrom : Nat → List Byte → Memory
  | _, []      => []
  | a, b :: bs => if b = 0x00#8 then Memory.imageFrom (a + 1) bs else (a, b) :: Memory.imageFrom (a + 1) bs

/-- The launch image of a ROM: its first 3584 bytes from 0x200 on, zero elsewhere (R75, R77). -/
def Memory.image (rom : List Byte) : Memory := Memory.imageFrom Config.loadOffset (rom.take Config.romMax)

/-- Port LOAD: the host populates the memory store, once, before the first tick (00_scope R12). -/
def State.load (s : State) (rom : List Byte) : State := { s with mem := Memory.image rom }

/-- The launch state for a given `I_RESET` and ROM (70 R242, R244). -/
def State.launch (iReset : Word) (rom : List Byte) : State := (State.resetWith iReset).load rom

/-- The loader's failures: the host's, not engine events (60_exceptions R213). -/
inductive LoadError where
  /-- The ROM file cannot be opened. -/
  | ioError
  /-- The file yielded zero bytes. -/
  | emptyRomError
deriving DecidableEq, Repr

/-- What the loader reports for a file, `none` being one that cannot be opened (60_exceptions R213). -/
def loadReport (file : Option (List Byte)) : Option LoadError :=
  match file with
  | none          => some .ioError
  | some []       => some .emptyRomError
  | some (_ :: _) => none

/-- The memory the loader leaves: the image, or all zero after a failed load (20_memory R78). -/
def loadRom (file : Option (List Byte)) : Memory := Memory.image (file.getD [])

end Sys2Proof.Machine
end

