-- ==== Sys2Proof/Machine/Ports.lean ====
section
/-! DEFINITION. The host's view of the engine between steps (spec 00_scope R13 to R16) and the numeric codes of
60_exceptions R215. No instruction reads any of this. -/

namespace Sys2Proof.Machine

/-- Port DISP: the cell at column `x`, row `y` (00_scope R13). -/
def State.dispPort (s : State) (x : Fin 64) (y : Fin 32) : Bool := Display.get s.disp x y

/-- Port STATUS (00_scope R16). -/
def State.statusPort (s : State) : Status := s.status

/-- The word and the address of a diagnostic event. -/
def Event.diagnostic? : Event → Option (Word × Word)
  | .diag _ w a => some (w, a)
  | .refresh    => none

/-- Port DIAG: the diagnostics emitted so far, oldest first (00_scope R14). -/
def State.diagPort (s : State) : List (Word × Word) := s.events.filterMap Event.diagnostic?

/-- Port REFRESH: how many times the presentation layer was notified (00_scope R15). -/
def State.refreshCount (s : State) : Nat := s.events.countP (· == .refresh)

/-- Codes 1 and 2 of R215. -/
def Cause.code : Cause → Nat
  | .fetchOutOfRange      => 1
  | .spriteReadOutOfRange => 2

/-- Code 3 of R215. -/
def DiagKind.code : DiagKind → Nat
  | .unknownInstruction => 3

/-- Code 0 of R215 while running, the cause's code once faulted. -/
def Status.code : Status → Nat
  | .running     => 0
  | .faulted c _ => c.code

end Sys2Proof.Machine
end

