-- ==== Sys2Proof/Safety.lean ====
section
/-! DEFINITION. The words in which claims about the machine are made: what stands at `pc`, the sprite mask of 45 R185, the
invariant of every reachable state, and how a run stands (70 R247). -/

namespace Sys2Proof.Machine

/-- The engine is running and the word `w` stands at `pc`, its more significant byte at the lower address
(20_memory R62), both bytes inside memory (40 R121). -/
structure WordAtPc (s : State) (w : Word) : Prop where
  running : s.status = .running
  inRange : s.pc.toNat ≤ 0x0FFE
  byte0   : s.mem.read s.pc.toNat = some (w.extractLsb' 8 8)
  byte1   : s.mem.read (s.pc.toNat + 1) = some (w.extractLsb' 0 8)

/-- The sprite fits: `n = 0`, or every row address `I … I + n − 1` is at most 4095 (45 R181). -/
abbrev SpriteFits (s : State) (n : Nibble) : Prop := n.toNat = 0 ∨ s.i.toNat + n.toNat - 1 ≤ 4095

/-- Sprite row `r`, column offset `b` has its bit set: bit `7 − b` of the byte at `I + r` (45 R183). -/
abbrev SpriteBitSet (s : State) (r b : Nat) : Prop := ((s.mem.read (s.i.toNat + r)).getD 0).getLsbD (7 - b) = true

/-- The sprite mask `M[px][py]` of 45 R185 for the coordinates held in `V[x]` and `V[y]` and height `n`. -/
abbrev SpriteMask (s : State) (x y : Reg) (n : Nibble) (px : Fin 64) (py : Fin 32) : Prop :=
  ∃ r < n.toNat, ∃ b < 8, SpriteBitSet s r b ∧
    px.val = ((s.v[x]).toNat % 64 + b) % 64 ∧ py.val = ((s.v[y]).toNat % 32 + r) % 32

/-- What holds of every reachable state, `iReset` being the value `I` was reset to (10_state R35, R39, R40, R45;
60_exceptions R215). -/
structure State.Inv (iReset : Word) (s : State) : Prop where
  /-- Memory is in canonical form. -/
  memWf : s.mem.wf = true
  /-- R35: `0 ≤ pc ≤ 0x1000` while running. -/
  pcRange : s.status = .running → s.pc.toNat ≤ 0x1000
  /-- R39: `I` is at its reset value or at most 0x0FFF. -/
  iRange : s.i = iReset ∨ s.i.toNat ≤ 0x0FFF
  /-- R40: the stack holds its reset value 0 for ever. -/
  stackZero : s.stack = Vector.replicate 16 0x0000#16
  /-- R215 code 1: a fetch fault has `pc > 0x0FFE` still readable and records `max(pc, 0x1000)`. -/
  fetchFault : ∀ a, s.status = .faulted .fetchOutOfRange a → 0x0FFE < s.pc.toNat ∧ a.toNat = max s.pc.toNat 0x1000
  /-- R215 code 2: a sprite fault leaves `pc` at an instruction that was fetched and records `max(I, 0x1000)`; it needs
  `I ≥ 0xFF2` (45 R181). -/
  spriteFault : ∀ a, s.status = .faulted .spriteReadOutOfRange a →
    s.pc.toNat ≤ 0x0FFE ∧ 0x0FF2 ≤ s.i.toNat ∧ a.toNat = max s.i.toNat 0x1000
  /-- Every diagnostic is about a word no row of the opcode map selects, fetched from inside memory. -/
  diagsUnknown : ∀ k w a, Event.diag k w a ∈ s.events → isUnknownWord w = true ∧ a.toNat ≤ 0x0FFE

/-- A parked state: running, and the step from it leaves it unchanged (70 R247). -/
def State.Parked (s : State) : Prop := s.status = .running ∧ step s = .next s

/-- A faulted state: terminal, never a successful end (70 R247). -/
abbrev State.Faulted (s : State) : Prop := ∃ c a, s.status = .faulted c a

/-- The state after `k` ticks, from `s` (70 R247). -/
abbrev afterTicks (k : Nat) (s : State) : Answer := Host.Core.run Sys2Proof.core k s

/-- A safe run: after any number of ticks the engine is still running. -/
def SafeRun (s : State) : Prop := ∀ k, ∃ t, afterTicks k s = .next t ∧ t.status = .running

end Sys2Proof.Machine
end

