-- ==== Sys2Proof/Certificates/Slice0/Obligations.lean ====
section
/-! DEFINITION. The statements for the provers, one per rule or group of rules of the spec. `WordAtPc s w` says that the
engine runs and that the word `w` stands at `pc`, whose two bytes lie in memory; most statements about an instruction are
made about one step from such a state, so that they say what the word's bits do, not what the decoder calls them. -/

open Sys2Proof Sys2Proof.Machine

/-! ### Encoding -/

/-- Decoding the bytes of a well-formed instruction gives it back, with every operand at every value. The words are those
of R103's encoding functions, but for `cls`, whose field X the model keeps: R103 writes `CLS` as 0x00E0 alone, and the
encodings of the fifteen other X are the model's choice, log 22. -/
def Obligations.DecodeOfEncodeIsIdentity : Prop :=
  ∀ (i : Instr) (rest : List Byte), i.wf = true → decode (encode i ++ rest) = .ok (i, rest)

/-- Whatever is decoded is well formed, and its encoding is the two bytes it was decoded from. That an instruction is two
bytes is R90 and that every word has one outcome is R102; that no bit of a word is lost is THE MODEL'S CHOICE and no rule of
the spec: it holds because `cls` keeps its ignored field X (DESIGN CHOICE, log 22), where R103's encoder writes 0x00E0 for
every CLS. -/
def Obligations.EncodeOfDecodeIsIdentity : Prop :=
  ∀ (bytes rest : List Byte) (i : Instr), decode bytes = .ok (i, rest) → i.wf = true ∧ bytes = encode i ++ rest

/-- The decoder, written by class and sub-opcode, selects an instruction exactly when the opcode map's mask and match of
that row do (R98). -/
def Obligations.DecoderAgreesWithOpcodeMap : Prop :=
  ∀ (w : Word) (i : Instr), i = decodeBytes (hiByte w) (loByte w) →
    ((∃ x, i = .cls x) ↔ w &&& 0xF0FF#16 = 0x00E0#16) ∧
    ((∃ a, i = .jp a) ↔ w &&& 0xF000#16 = 0x1000#16) ∧
    ((∃ x nn, i = .ldVxByte x nn) ↔ w &&& 0xF000#16 = 0x6000#16) ∧
    ((∃ x nn, i = .addVxByte x nn) ↔ w &&& 0xF000#16 = 0x7000#16) ∧
    ((∃ a, i = .ldI a) ↔ w &&& 0xF000#16 = 0xA000#16) ∧
    ((∃ x y n, i = .drw x y n) ↔ w &&& 0xF000#16 = 0xD000#16) ∧
    ((∃ u, i = .unknown u) ↔ isUnknownWord w = true)

/-- The six rows of the opcode map are disjoint (R98). -/
def Obligations.OpcodeRowsAreDisjoint : Prop :=
  ∀ w : Word, opcodeRows.Pairwise fun r q => ¬ (r.selects w = true ∧ q.selects w = true)

/-- R100, the decoder as a case on `w[15:12]`, with the operand fields of R96. -/
def Obligations.DecodeByClass : Prop :=
  ∀ (w : Word) (i : Instr), i = decodeBytes (hiByte w) (loByte w) →
    (w.extractLsb' 12 4 = 0x0#4 →
      (w.extractLsb' 0 8 = 0xE0#8 → i = .cls (w.extractLsb' 8 4)) ∧ (w.extractLsb' 0 8 ≠ 0xE0#8 → i = .unknown w)) ∧
    (w.extractLsb' 12 4 = 0x1#4 → i = .jp (w.extractLsb' 0 12)) ∧
    (w.extractLsb' 12 4 = 0x6#4 → i = .ldVxByte (w.extractLsb' 8 4).toFin (w.extractLsb' 0 8)) ∧
    (w.extractLsb' 12 4 = 0x7#4 → i = .addVxByte (w.extractLsb' 8 4).toFin (w.extractLsb' 0 8)) ∧
    (w.extractLsb' 12 4 = 0xA#4 → i = .ldI (w.extractLsb' 0 12)) ∧
    (w.extractLsb' 12 4 = 0xD#4 →
      i = .drw (w.extractLsb' 8 4).toFin (w.extractLsb' 4 4).toFin (w.extractLsb' 0 4)) ∧
    (w.extractLsb' 12 4 ∈ [0x2#4, 0x3#4, 0x4#4, 0x5#4, 0x8#4, 0x9#4, 0xB#4, 0xC#4, 0xE#4, 0xF#4] → i = .unknown w)

/-- The six fields are the bits R91 gives them, cut the same way from every word, and overlap as it says. -/
def Obligations.FieldsAreBitsOfWord : Prop :=
  ∀ (byte0 byte1 : Byte) (f : Fields), f = decodeFields byte0 byte1 →
    f.cls = (byte0 ++ byte1).extractLsb' 12 4 ∧ f.x = (byte0 ++ byte1).extractLsb' 8 4 ∧
    f.y = (byte0 ++ byte1).extractLsb' 4 4 ∧ f.n = (byte0 ++ byte1).extractLsb' 0 4 ∧
    f.nn = (byte0 ++ byte1).extractLsb' 0 8 ∧ f.nnn = (byte0 ++ byte1).extractLsb' 0 12 ∧
    f.nn = f.y ++ f.n ∧ f.nnn = f.x ++ f.y ++ f.n ∧ f.nnn = (f.x.setWidth 12 <<< 8) ||| f.nn.setWidth 12

/-- Words written out from the spec's encodings (vectors V1 to V9 of 95_test_vectors.md) decode to what they stand for. -/
def Obligations.SampleWordsDecode : Prop :=
  decode [0x00#8, 0xE0#8] = .ok (.cls 0x0#4, []) ∧ decode [0x0F#8, 0xE0#8] = .ok (.cls 0xF#4, []) ∧
  decode [0x12#8, 0x34#8] = .ok (.jp 0x234#12, []) ∧ decode [0x6A#8, 0x2F#8] = .ok (.ldVxByte 10 0x2F#8, []) ∧
  decode [0x7F#8, 0xFF#8] = .ok (.addVxByte 15 0xFF#8, []) ∧ decode [0xAF#8, 0xFF#8] = .ok (.ldI 0xFFF#12, []) ∧
  decode [0xD1#8, 0x2F#8] = .ok (.drw 1 2 0xF#4, []) ∧ decode [0x00#8, 0xEE#8] = .ok (.unknown 0x00EE#16, []) ∧
  decode [0x00#8, 0x00#8] = .ok (.unknown 0x0000#16, [])

/-! ### The step -/

/-- When the bytes at `pc` decode to a well-formed instruction, the step is the meaning of that instruction at that
state, with nothing around it (R120): fetch's `pc += 2` is part of every meaning (notes/assumptions/5.md). -/
def Obligations.StepRunsDecodedInstruction : Prop :=
  ∀ (s : State) (byte0 byte1 : Byte) (i : Instr), s.status = .running → s.pc.toNat ≤ 0x0FFE →
    s.mem.read s.pc.toNat = some byte0 → s.mem.read (s.pc.toNat + 1) = some byte1 →
    decode [byte0, byte1] = .ok (i, []) → i.wf = true → step s = exec i s

/-- A word placed at `pc` is the one the next step runs, in any state whose `pc` can be fetched from, and no other byte
of memory is touched (the model's own helper, 20_memory R62). -/
def Obligations.PlacedWordIsRun : Prop :=
  ∀ (s : State) (nbits w : Nat), s.mem.wf = true → s.pc.toNat ≤ 0x0FFE →
    WordAtPc (s.withFetchWord nbits w) (tableWord nbits w) ∧
    (∀ a, a ≠ s.pc.toNat → a ≠ s.pc.toNat + 1 → (s.withFetchWord nbits w).mem.read a = s.mem.read a) ∧
    ∃ i, decodeTableWord nbits w = some i ∧ step (s.withFetchWord nbits w) = exec i (s.withFetchWord nbits w)

/-- A running engine's step has one of two outcomes: a running next state with zero or one event more, or the old state
with `status` faulted (R22). A faulted engine's tick changes nothing (R217). -/
def Obligations.StepHasOneOfTwoOutcomes : Prop :=
  (∀ s : State, s.status = .running → ∃ t, step s = .next t ∧
    ((t.status = .running ∧ (t.events = s.events ∨ ∃ e, t.events = s.events ++ [e])) ∨
     ∃ c a, t = { s with status := .faulted c a })) ∧
  (∀ s : State, s.Faulted → step s = .next s)

/-- From every state, any number of ticks leads to a next state: the model's own stops (`Fault`, `Refusal`) are never
reached (R22: the step is total; notes/assumptions/6.md). -/
def Obligations.TicksNeverStop : Prop :=
  ∀ (k : Nat) (s : State), ∃ t, afterTicks k s = .next t

/-- Fetch advances `pc` by 2 whatever the word is, and only a word of class 1 changes it again (R34, R124, R151). -/
def Obligations.OnlyJpRedirectsPc : Prop :=
  ∀ (s t : State) (w : Word), WordAtPc s w → step s = .next t → t.status = .running →
    (w.extractLsb' 12 4 ≠ 0x1#4 → t.pc.toNat = s.pc.toNat + 2) ∧
    (w.extractLsb' 12 4 = 0x1#4 → t.pc.toNat = (w.extractLsb' 0 12).toNat)

/-! ### Faults -/

/-- R215 and R218: a running engine's step raises `FetchOutOfRange` exactly when `pc > 0x0FFE`, and otherwise
`SpriteReadOutOfRange` exactly when the word at `pc` is a DRW with N > 0 and `I + N − 1 > 4095`; the address recorded is
the lowest above 4095 that the access needs. -/
def Obligations.FaultsExactlyOutOfRange : Prop :=
  ∀ (s t : State) (a : Word), s.status = .running → step s = .next t →
    (t.status = .faulted .fetchOutOfRange a ↔ 0x0FFE < s.pc.toNat ∧ a.toNat = max s.pc.toNat 0x1000) ∧
    (t.status = .faulted .spriteReadOutOfRange a ↔
      ∃ w, WordAtPc s w ∧ w.extractLsb' 12 4 = 0xD#4 ∧ 0 < (w.extractLsb' 0 4).toNat ∧
        4095 < s.i.toNat + (w.extractLsb' 0 4).toNat - 1 ∧ a.toNat = max s.i.toNat 0x1000)

/-- R216: a step that faults changes nothing but `status`; no event is emitted and `pc` stays at the instruction. -/
def Obligations.FaultChangesOnlyStatus : Prop :=
  ∀ (s t : State) (c : Cause) (a : Word), s.status = .running → step s = .next t → t.status = .faulted c a →
    t = { s with status := .faulted c a }

/-- R217: however many ticks arrive, a faulted machine changes nothing and emits nothing. -/
def Obligations.FaultedMachineIsFrozen : Prop :=
  ∀ (k : Nat) (s : State), s.Faulted → afterTicks k s = .next s

/-! ### The instructions, from the word at `pc` -/

/-- R140, R141: each of the sixteen words `0x0XE0` clears every display cell and changes nothing else but `pc`. -/
def Obligations.ClsClearsDisplay : Prop :=
  ∀ (s : State) (w : Word), WordAtPc s w → w &&& 0xF0FF#16 = 0x00E0#16 →
    ∃ t, step s = .next t ∧ (∀ x y, Display.get t.disp x y = false) ∧
      t = { s with pc := s.pc + 2#16, disp := t.disp }

/-- R150: `JP addr` sets `pc` to the zero-extended address and changes nothing else; a target of 0xFFF is accepted and
the next step faults. -/
def Obligations.JpLoadsTarget : Prop :=
  ∀ (s : State) (addr : Addr), WordAtPc s (0x1000#16 ||| addr.setWidth 16) →
    step s = .next { s with pc := addr.setWidth 16 } ∧
    (addr = 0xFFF#12 → step { s with pc := addr.setWidth 16 } =
      .next { s with pc := 0x0FFF#16, status := .faulted .fetchOutOfRange 0x1000#16 })

/-- R160: `LD Vx, byte` assigns the byte to `V[X]`, X = 15 included, and changes nothing else but `pc`. -/
def Obligations.LdVxByteAssigns : Prop :=
  ∀ (s : State) (x : Reg) (nn : Byte), WordAtPc s (0x6000#16 ||| (BitVec.ofNat 16 x.val <<< 8) ||| nn.setWidth 16) →
    ∃ t, step s = .next t ∧ t.v[x] = nn ∧ (∀ y : Reg, y ≠ x → t.v[y] = s.v[y]) ∧
      t = { s with pc := s.pc + 2#16, v := t.v }

/-- R161: `ADD Vx, byte` adds modulo 256 into `V[X]`, X = 15 included, touches no flag, and changes nothing else but
`pc`. -/
def Obligations.AddVxByteWraps : Prop :=
  ∀ (s : State) (x : Reg) (nn : Byte), WordAtPc s (0x7000#16 ||| (BitVec.ofNat 16 x.val <<< 8) ||| nn.setWidth 16) →
    ∃ t, step s = .next t ∧ (t.v[x]).toNat = ((s.v[x]).toNat + nn.toNat) % 256 ∧
      (∀ y : Reg, y ≠ x → t.v[y] = s.v[y]) ∧ t = { s with pc := s.pc + 2#16, v := t.v }

/-- R170: `LD I, addr` sets `I` to the zero-extended address, whatever `I` was, and changes nothing else but `pc`; after
`LD I, 0xFFF` a sprite fits exactly if it has at most one row; and a step that changes `I` is an `LD I, addr`. -/
def Obligations.LdILoadsAddress : Prop :=
  (∀ (s : State) (addr : Addr), WordAtPc s (0xA000#16 ||| addr.setWidth 16) →
    ∃ t, step s = .next t ∧ t = { s with pc := s.pc + 2#16, i := addr.setWidth 16 } ∧
      (addr = 0xFFF#12 → ∀ n, SpriteFits t n ↔ n.toNat ≤ 1)) ∧
  (∀ s t : State, step s = .next t → t.i ≠ s.i → ∃ addr : Addr, WordAtPc s (0xA000#16 ||| addr.setWidth 16))

/-- R200 (R142, R203): a word of one of the ten unlisted classes, or of class 0 whose low byte is not 0xE0, changes
nothing but `pc` and emits one diagnostic with the word and its address. -/
def Obligations.UnknownWordIsSkipped : Prop :=
  ∀ (s : State) (w : Word), WordAtPc s w →
    (w.extractLsb' 12 4 ∈ [0x2#4, 0x3#4, 0x4#4, 0x5#4, 0x8#4, 0x9#4, 0xB#4, 0xC#4, 0xE#4, 0xF#4] ∨
      (w.extractLsb' 12 4 = 0x0#4 ∧ w.extractLsb' 0 8 ≠ 0xE0#8)) →
    step s = .next { s with pc := s.pc + 2#16, events := s.events ++ [.diag .unknownInstruction w s.pc] }

/-- For a sprite that fits, R180 (its registers, its flag, its one `Refresh`, the advance of `pc`; its fault is
`DrwFaultsIffSpriteLeavesMemory`) in the closed form of R185: every cell under the sprite mask is toggled and no other; `V[15]` becomes 1 if a
cell under the mask was on, else 0, whatever it was; the mask uses the coordinates `V[X]`, `V[Y]` held BEFORE (R182), bit
`7 − b` for column offset `b` (R183) and wraps on both axes (R184), X = Y included (R189); one `Refresh`; nothing else
changes but `pc`. -/
def Obligations.DrwXorsSpriteMask : Prop :=
  ∀ (s : State) (x y : Reg) (n : Nibble),
    WordAtPc s (0xD000#16 ||| (BitVec.ofNat 16 x.val <<< 8) ||| (BitVec.ofNat 16 y.val <<< 4) ||| n.setWidth 16) →
    SpriteFits s n →
    ∃ t, step s = .next t ∧
      (∀ px py, SpriteMask s x y n px py → Display.get t.disp px py = !(Display.get s.disp px py)) ∧
      (∀ px py, ¬ SpriteMask s x y n px py → Display.get t.disp px py = Display.get s.disp px py) ∧
      ((∃ px py, SpriteMask s x y n px py ∧ Display.get s.disp px py = true) → t.v[15] = 0x01#8) ∧
      ((¬ ∃ px py, SpriteMask s x y n px py ∧ Display.get s.disp px py = true) → t.v[15] = 0x00#8) ∧
      (∀ r : Reg, r ≠ 15 → t.v[r] = s.v[r]) ∧
      t = { s with pc := s.pc + 2#16, v := t.v, disp := t.disp, events := s.events ++ [.refresh] }

/-- R181: a DRW whose last row would lie above 4095 faults before any change; with `n = 0`, or with every row in memory,
it does not fault, whatever `I` holds; and what the test comes to once `I ≤ 0xFFF`. -/
def Obligations.DrwFaultsIffSpriteLeavesMemory : Prop :=
  ∀ (s : State) (x y : Reg) (n : Nibble),
    WordAtPc s (0xD000#16 ||| (BitVec.ofNat 16 x.val <<< 8) ||| (BitVec.ofNat 16 y.val <<< 4) ||| n.setWidth 16) →
    (0 < n.toNat ∧ 4095 < s.i.toNat + n.toNat - 1 →
      step s = .next { s with status := .faulted .spriteReadOutOfRange (BitVec.ofNat 16 (max s.i.toNat 0x1000)) }) ∧
    (SpriteFits s n → ∃ t, step s = .next t ∧ t.status = .running) ∧
    (s.i.toNat ≤ 0x0FFF → (SpriteFits s n ↔ n.toNat = 0 ∨ s.i.toNat + n.toNat ≤ 0x1000))

/-- R186: with `N = 0` no memory is read and `I` is not used: `V[15]` becomes 0, `Refresh` is emitted, and nothing else
changes but `pc`. -/
def Obligations.DrwOfNoRowsClearsFlag : Prop :=
  ∀ (s : State) (x y : Reg),
    WordAtPc s (0xD000#16 ||| (BitVec.ofNat 16 x.val <<< 8) ||| (BitVec.ofNat 16 y.val <<< 4)) →
    step s = .next { s with pc := s.pc + 2#16, v := s.v.set 15 0x00#8, events := s.events ++ [.refresh] }

/-- R187: a second DRW of the same sprite at the same coordinates restores the display; the first draw's flag is 1 iff
some cell under the sprite was on, the second's iff some such cell was off. The second draw may start from any state with
the display the first left and the same `V[X]`, `V[Y]`, `I` and memory (so `V[15]` may have been reloaded in between). -/
def Obligations.DrawingTwiceRestoresDisplay : Prop :=
  ∀ (s t s' : State) (x y : Reg) (n : Nibble), SpriteFits s n → exec (.drw x y n) s = .next t →
    s'.disp = t.disp → s'.v[x] = s.v[x] → s'.v[y] = s.v[y] → s'.i = s.i → s'.mem = s.mem →
    ∃ u, exec (.drw x y n) s' = .next u ∧ u.disp = s.disp ∧
      ((∃ px py, SpriteMask s x y n px py ∧ Display.get s.disp px py = true) → t.v[15] = 0x01#8) ∧
      ((¬ ∃ px py, SpriteMask s x y n px py ∧ Display.get s.disp px py = true) → t.v[15] = 0x00#8) ∧
      ((∃ px py, SpriteMask s x y n px py ∧ Display.get s.disp px py = false) → u.v[15] = 0x01#8) ∧
      ((¬ ∃ px py, SpriteMask s x y n px py ∧ Display.get s.disp px py = false) → u.v[15] = 0x00#8)

/-- R188: a sprite whose rows are all 0x00 toggles nothing and gives `V[15] = 0`; it still faults when its rows leave
memory. -/
def Obligations.BlankSpriteTogglesNothing : Prop :=
  ∀ (s : State) (x y : Reg) (n : Nibble), (∀ r, r < n.toNat → s.i.toNat + r ≤ 4095 → s.mem.read (s.i.toNat + r) = some 0x00#8) →
    (SpriteFits s n → exec (.drw x y n) s =
      .next { s with pc := s.pc + 2#16, v := s.v.set 15 0x00#8, events := s.events ++ [.refresh] }) ∧
    (¬ SpriteFits s n → ∃ a, exec (.drw x y n) s = .next { s with status := .faulted .spriteReadOutOfRange a })

/-! ### Completion and frames, per instruction -/

/-- CLS, JP, LD Vx, ADD Vx, LD I and every unknown instruction complete in EVERY state and for every operand, each with
the next state its rule gives (R140, R150, R160, R161, R170, R200). -/
def Obligations.NonDrawingInstructionsComplete : Prop :=
  ∀ s : State,
    (∀ x, exec (.cls x) s =
      .next { s with pc := s.pc + 2#16, disp := Vector.replicate 64 (Vector.replicate 32 false) }) ∧
    (∀ a, exec (.jp a) s = .next { s with pc := a.setWidth 16 }) ∧
    (∀ x nn, exec (.ldVxByte x nn) s = .next { s with pc := s.pc + 2#16, v := s.v.set x.val nn }) ∧
    (∀ x nn, exec (.addVxByte x nn) s = .next { s with pc := s.pc + 2#16, v := s.v.set x.val (s.v[x] + nn) }) ∧
    (∀ a, exec (.ldI a) s = .next { s with pc := s.pc + 2#16, i := a.setWidth 16 }) ∧
    (∀ w, exec (.unknown w) s =
      .next { s with pc := s.pc + 2#16, events := s.events ++ [.diag .unknownInstruction w s.pc] })

/-- DRW completes, with its own effect, for every sprite that fits (R180, R181): the flag is 0 or 1, the display holds a
toggled cell exactly under the mask, `Refresh` is emitted, `pc` advances and the machine runs on as it was. -/
def Obligations.DrwCompletesWhenSpriteFits : Prop :=
  ∀ (s : State) (x y : Reg) (n : Nibble), SpriteFits s n →
    ∃ t, exec (.drw x y n) s = .next t ∧ t.pc = s.pc + 2#16 ∧ t.status = s.status ∧
      t.events = s.events ++ [.refresh] ∧ (t.v[15] = 0x00#8 ∨ t.v[15] = 0x01#8) ∧
      ∀ px py, Display.get t.disp px py ≠ Display.get s.disp px py ↔ SpriteMask s x y n px py

/-- The frame of LD Vx and ADD Vx: no register but `V[X]`, not `I`, the stack, the display, the status, the events or any
byte of memory. -/
def Obligations.RegisterLoadsFrame : Prop :=
  ∀ (s t : State) (x : Reg) (nn : Byte),
    exec (.ldVxByte x nn) s = .next t ∨ exec (.addVxByte x nn) s = .next t →
    (∀ y : Reg, y ≠ x → t.v[y] = s.v[y]) ∧ t.i = s.i ∧ t.stack = s.stack ∧ t.disp = s.disp ∧ t.status = s.status ∧
    t.events = s.events ∧ ∀ a, t.mem.read a = s.mem.read a

/-- The frames of CLS (all but the display and `pc`), JP (all but `pc`), LD I (all but `I` and `pc`) and an unknown
instruction (all but `pc` and the events): registers, flag, stack, status and every byte of memory stay. -/
def Obligations.NonRegisterInstructionsFrame : Prop :=
  ∀ s t : State,
    (∀ x, exec (.cls x) s = .next t → t.v = s.v ∧ t.i = s.i ∧ t.stack = s.stack ∧ t.status = s.status ∧
      t.events = s.events ∧ ∀ a, t.mem.read a = s.mem.read a) ∧
    (∀ addr, exec (.jp addr) s = .next t → t.v = s.v ∧ t.i = s.i ∧ t.stack = s.stack ∧ t.disp = s.disp ∧
      t.status = s.status ∧ t.events = s.events ∧ ∀ a, t.mem.read a = s.mem.read a) ∧
    (∀ addr, exec (.ldI addr) s = .next t → t.v = s.v ∧ t.stack = s.stack ∧ t.disp = s.disp ∧ t.status = s.status ∧
      t.events = s.events ∧ ∀ a, t.mem.read a = s.mem.read a) ∧
    (∀ w, exec (.unknown w) s = .next t → t.v = s.v ∧ t.i = s.i ∧ t.stack = s.stack ∧ t.disp = s.disp ∧
      t.status = s.status ∧ ∀ a, t.mem.read a = s.mem.read a)

/-- The frame of DRW, faulting or not: no register but `V[15]`, not `I` or the stack, no byte of memory, no cell outside
the sprite mask. -/
def Obligations.DrwFrame : Prop :=
  ∀ (s t : State) (x y : Reg) (n : Nibble), exec (.drw x y n) s = .next t →
    (∀ r : Reg, r ≠ 15 → t.v[r] = s.v[r]) ∧ t.i = s.i ∧ t.stack = s.stack ∧ (∀ a, t.mem.read a = s.mem.read a) ∧
    ∀ px py, ¬ SpriteMask s x y n px py → Display.get t.disp px py = Display.get s.disp px py

/-! ### Rules about the whole machine -/

/-- R66 (and R40): no step writes memory or the stack, so both are constant however long the machine runs. -/
def Obligations.MemoryAndStackAreConstant : Prop :=
  ∀ (k : Nat) (s t : State), afterTicks k s = .next t → t.mem = s.mem ∧ t.stack = s.stack

/-- R39: a step leaves `I` as it was unless the word at `pc` is of class 0xA; such a step makes it at most 0x0FFF; and from
a state with `I ≤ 0x0FFF` it stays so for ever. -/
def Obligations.IndexRegisterIsTwelveBitsOnceLoaded : Prop :=
  (∀ s t : State, step s = .next t → t.i = s.i ∨ ∃ w, WordAtPc s w ∧ w.extractLsb' 12 4 = 0xA#4) ∧
  (∀ (s t : State) (w : Word), WordAtPc s w → w.extractLsb' 12 4 = 0xA#4 → step s = .next t → t.i.toNat ≤ 0x0FFF) ∧
  (∀ (k : Nat) (s t : State), s.i.toNat ≤ 0x0FFF → afterTicks k s = .next t → t.i.toNat ≤ 0x0FFF)

/-- Who writes a general register (R30, R32): only LD Vx and ADD Vx their own `V[X]`, and DRW only `V[15]`. -/
def Obligations.WritersOfRegisters : Prop :=
  ∀ (s t : State) (w : Word) (r : Reg), WordAtPc s w → step s = .next t → t.v[r] ≠ s.v[r] →
    ((w.extractLsb' 12 4 = 0x6#4 ∨ w.extractLsb' 12 4 = 0x7#4) ∧ (w.extractLsb' 8 4).toNat = r.val) ∨
    (w.extractLsb' 12 4 = 0xD#4 ∧ r = 15)

/-- Who writes the display (R30, R42): CLS, after which the cell is off, and DRW, which turns it over. -/
def Obligations.WritersOfDisplay : Prop :=
  ∀ (s t : State) (w : Word) (x : Fin 64) (y : Fin 32), WordAtPc s w → step s = .next t →
    Display.get t.disp x y ≠ Display.get s.disp x y →
    (w &&& 0xF0FF#16 = 0x00E0#16 ∧ Display.get t.disp x y = false) ∨
    (w.extractLsb' 12 4 = 0xD#4 ∧ Display.get t.disp x y = !(Display.get s.disp x y))

/-- What a step emits (R14, R15): an unknown word one diagnostic, a DRW that does not fault one `Refresh`, and every other
word nothing. -/
def Obligations.EventsOfStep : Prop :=
  ∀ (s t : State) (w : Word), WordAtPc s w → step s = .next t →
    t.events = s.events ++
      (if isUnknownWord w then [.diag .unknownInstruction w s.pc]
       else if w.extractLsb' 12 4 = 0xD#4 ∧ t.status = .running then [.refresh] else [])

/-- R40 and R47: no step reads the stack or the record of events: with other contents of both, a step does the same and
leaves them as they are, but for the events it adds. -/
def Obligations.StackAndEventsAreNeverRead : Prop :=
  ∀ (s t : State) (stack : Vector Word 16) (events : List Event), step s = .next t →
    ∃ new, t.events = s.events ++ new ∧
      step { s with stack := stack, events := events } = .next { t with stack := stack, events := events ++ new }

/-- R151: control flow does not depend on data: with other registers and another display, the next `pc`, `I`, `status`
and events are the same. There are no conditional branches and no register-relative jumps. -/
def Obligations.ControlFlowIgnoresData : Prop :=
  ∀ (s t t' : State) (v : Vector Byte 16) (d : Display), step s = .next t →
    step { s with v := v, disp := d } = .next t' →
    t'.pc = t.pc ∧ t'.i = t.i ∧ t'.status = t.status ∧ t'.events = t.events

/-- R43: the display reaches nothing but itself and, through DRW, the collision flag. -/
def Obligations.DisplayReachesOnlyTheFlag : Prop :=
  ∀ (s t : State) (d : Display), step s = .next t →
    ∃ t', step { s with disp := d } = .next t' ∧ (∀ r : Reg, r ≠ 15 → t'.v[r] = t.v[r]) ∧
      t' = { t with v := t'.v, disp := t'.disp }

/-- R37 and R38: `I`, and with it the open `I_RESET`, is read by nothing but a DRW with `N > 0`. -/
def Obligations.OnlyDrwWithRowsReadsI : Prop :=
  ∀ (s t : State) (w j : Word), WordAtPc s w → ¬ (w.extractLsb' 12 4 = 0xD#4 ∧ w.extractLsb' 0 4 ≠ 0x0#4) →
    step s = .next t →
    step { s with i := j } = .next { t with i := if w.extractLsb' 12 4 = 0xA#4 then t.i else j }

/-- R61: a step reads no byte of memory but the two at `pc` and, for DRW, the N sprite rows from `I` on. -/
def Obligations.StepReadsOnlyFetchAndSpriteBytes : Prop :=
  ∀ (s t : State) (w : Word) (m : Memory), WordAtPc s w → step s = .next t →
    (∀ a, a = s.pc.toNat ∨ a = s.pc.toNat + 1 ∨
      (w.extractLsb' 12 4 = 0xD#4 ∧ s.i.toNat ≤ a ∧ a < s.i.toNat + (w.extractLsb' 0 4).toNat) → m.read a = s.mem.read a) →
    step { s with mem := m } = .next { t with mem := m }

/-! ### Invariant, reset, launch, runs -/

/-- The invariant of `State.Inv` (R35, R39, R40, R45, R215 and the canonical form of memory) is kept by every step, from
every state that has it, reachable or not. -/
def Obligations.StepKeepsInvariant : Prop :=
  ∀ (iReset : Word) (s t : State), s.Inv iReset → step s = .next t → t.Inv iReset

/-- The state after reset has the invariant, whatever `I_RESET` is, and so has `State.reset`. -/
def Obligations.ResetHasInvariant : Prop :=
  (∀ iReset : Word, (State.resetWith iReset).Inv iReset) ∧ ∃ iReset, State.reset.Inv iReset

/-- The launch state of every ROM has the invariant, whatever `I_RESET` is (R244). -/
def Obligations.LaunchHasInvariant : Prop :=
  ∀ (iReset : Word) (rom : List Byte), (State.launch iReset rom).Inv iReset

/-- R240, R48: what reset leaves, for every `I_RESET`, which the spec leaves open (R38). -/
def Obligations.ResetValues : Prop :=
  ∀ (iReset : Word) (s : State), s = State.resetWith iReset →
    (∀ r : Reg, s.v[r] = 0x00#8) ∧ s.pc = 0x0200#16 ∧ s.i = iReset ∧ (∀ k : Fin 16, s.stack[k] = 0x0000#16) ∧
    (∀ x y, Display.get s.disp x y = false) ∧ (∀ a, a ≤ 4095 → s.mem.read a = some 0x00#8) ∧ s.status = .running

/-- R75, R244: the launch state of a ROM of any length: its first `min(L, 3584)` bytes from 0x200 on, every other byte
0x00, and everything else as reset left it. -/
def Obligations.LaunchImageOfRom : Prop :=
  ∀ (iReset : Word) (rom : List Byte) (s : State), s = State.launch iReset rom →
    (∀ a, 0x200 ≤ a → a < 0x200 + min rom.length 3584 → s.mem.read a = rom[a - 0x200]?) ∧
    (∀ a, a ≤ 4095 → ¬ (0x200 ≤ a ∧ a < 0x200 + min rom.length 3584) → s.mem.read a = some 0x00#8) ∧
    s = { State.resetWith iReset with mem := s.mem }

/-- R77: a ROM longer than 3584 bytes launches exactly as its first 3584 bytes do, and one of at least 3584 bytes fills
memory to the last address. -/
def Obligations.LongRomIsTruncated : Prop :=
  ∀ (iReset : Word) (rom tail : List Byte), rom.length = 3584 →
    State.launch iReset (rom ++ tail) = State.launch iReset rom ∧
    (State.launch iReset (rom ++ tail)).mem.read 0xFFF = rom[3583]?

/-- R78, R213: a file that cannot be opened or that is empty is reported as such and leaves memory all zero; any other is
reported as loaded. -/
def Obligations.FailedLoadsLeaveZeroMemory : Prop :=
  ∀ file : Option (List Byte),
    (loadReport file = some .ioError ↔ file = none) ∧ (loadReport file = some .emptyRomError ↔ file = some []) ∧
    (∀ e, loadReport file = some e → ∀ a, a ≤ 4095 → (loadRom file).read a = some 0x00#8)

/-- R202, R251: over zero memory each tick executes the unknown word 0x0000 and emits its diagnostic; on reaching 0x1000
the next tick faults. It does not wrap. An even `pc` reaches 0x1000; an odd one reaches 0x0FFF instead, where
`FaultsExactlyOutOfRange` gives the fault. -/
def Obligations.ZeroMemorySlidesToFault : Prop :=
  ∀ (k : Nat) (s : State), s.status = .running → s.pc.toNat + 2 * k ≤ 0x1000 →
    (∀ a, s.pc.toNat ≤ a → a ≤ 4095 → s.mem.read a = some 0x00#8) →
    ∃ t, t = { s with
        pc := BitVec.ofNat 16 (s.pc.toNat + 2 * k)
        events := s.events ++ (List.range k).map fun j =>
          .diag .unknownInstruction 0x0000#16 (BitVec.ofNat 16 (s.pc.toNat + 2 * j)) } ∧
      afterTicks k s = .next t ∧
      (s.pc.toNat + 2 * k = 0x1000 →
        afterTicks (k + 1) s = .next { t with status := .faulted .fetchOutOfRange 0x1000#16 })

/-- R247 (b): a state is parked exactly when the word at `pc` is a jump to `pc` itself, and a parked state stays as it is
for ever. -/
def Obligations.ParkedIffSelfJump : Prop :=
  ∀ s : State, (s.Parked ↔ WordAtPc s (0x1000#16 ||| s.pc)) ∧ (s.Parked → ∀ k, afterTicks k s = .next s)
end

