-- ==== Sys2Proof/Laws/Encoding.lean ====
section
/-! SUPPORT. The byte order of a word, and the opcode map's masks as tests of the class field. -/

namespace Sys2Proof

theorem joinBytes_hiByte_loByte (w : Word) : joinBytes (hiByte w) (loByte w) = w := by
  apply BitVec.eq_of_getLsbD_eq
  intro i hi
  simp only [joinBytes, hiByte, loByte, BitVec.getLsbD_append, BitVec.getLsbD_extractLsb']
  interval_cases i <;> simp

theorem hiByte_joinBytes (b0 b1 : Byte) : hiByte (joinBytes b0 b1) = b0 := by
  apply BitVec.eq_of_getLsbD_eq
  intro i hi
  simp only [joinBytes, hiByte, BitVec.getLsbD_append, BitVec.getLsbD_extractLsb']
  interval_cases i <;> simp

theorem loByte_joinBytes (b0 b1 : Byte) : loByte (joinBytes b0 b1) = b1 := by
  apply BitVec.eq_of_getLsbD_eq
  intro i hi
  simp only [joinBytes, loByte, BitVec.getLsbD_append, BitVec.getLsbD_extractLsb']
  interval_cases i <;> simp

/-- Mask 0xF000 tests the class field. -/
theorem and_F000_eq_iff (w : Word) (k : Nibble) : w &&& 0xF000#16 = k.setWidth 16 <<< 12 ↔ w.extractLsb' 12 4 = k := by
  constructor
  · intro h
    apply BitVec.eq_of_getLsbD_eq
    intro i hi
    have := congrArg (fun v : Word => v.getLsbD (12 + i)) h
    interval_cases i <;> simpa using this
  · rintro rfl
    apply BitVec.eq_of_getLsbD_eq
    intro i hi
    interval_cases i <;> simp

/-- The mask and match of CLS test the class field and the low byte, and not field X. -/
theorem and_F0FF_eq_iff (w : Word) :
    w &&& 0xF0FF#16 = 0x00E0#16 ↔ w.extractLsb' 12 4 = 0x0#4 ∧ w.extractLsb' 0 8 = 0xE0#8 := by
  constructor
  · intro h
    constructor
    · apply BitVec.eq_of_getLsbD_eq
      intro i hi
      have := congrArg (fun v : Word => v.getLsbD (12 + i)) h
      interval_cases i <;> simpa using this
    · apply BitVec.eq_of_getLsbD_eq
      intro i hi
      have := congrArg (fun v : Word => v.getLsbD i) h
      interval_cases i <;> simpa using this
  · rintro ⟨h1, h2⟩
    apply BitVec.eq_of_getLsbD_eq
    intro i hi
    have f1 := congrArg (fun v : Nibble => v.getLsbD (i - 12)) h1
    have f2 := congrArg (fun v : Byte => v.getLsbD i) h2
    clear h1 h2
    interval_cases i <;> simp at f1 f2 ⊢ <;> assumption

end Sys2Proof
end

