-- ==== Sys2Proof/Laws/Memory.lean ====
section
/-! SUPPORT. Memory: reading, writing, the canonical form every operation keeps, sprite rows and the launch image. -/

namespace Sys2Proof.Machine

/-! ### Reading -/

theorem Memory.read_eq_some {m : Memory} {a : Nat} (h : a < 4096) : m.read a = some (m.cell a) := if_pos h

theorem Memory.read_eq_none {m : Memory} {a : Nat} (h : 4096 ≤ a) : m.read a = none :=
  if_neg (by simp only [Config.memSize]; omega)

theorem Memory.read_isSome_iff {m : Memory} {a : Nat} : (m.read a).isSome ↔ a < 4096 := by
  unfold Memory.read
  split <;> simp_all [Config.memSize]

/-- `readThen` with an address inside memory goes on with the byte there. -/
theorem Memory.readThen_of_read {m : Memory} {a : Nat} {b : Byte} (k : Byte → Answer) (h : m.read a = some b) :
    m.readThen a k = k b := by
  simp [Memory.readThen, h]

theorem Memory.readThen_of_lt {m : Memory} {a : Nat} (k : Byte → Answer) (h : a < 4096) :
    m.readThen a k = k (m.cell a) :=
  Memory.readThen_of_read k (Memory.read_eq_some h)

/-! ### Canonical form -/

theorem Memory.wfFrom_mono {lo lo' : Nat} {m : Memory} (hle : lo' ≤ lo) (h : m.wfFrom lo = true) :
    m.wfFrom lo' = true := by
  cases m with
  | nil => rfl
  | cons c m =>
    obtain ⟨k, b⟩ := c
    simp only [Memory.wfFrom, Bool.and_eq_true, decide_eq_true_eq] at h ⊢
    exact ⟨⟨⟨by omega, h.1.1.2⟩, h.1.2⟩, h.2⟩

/-- No address below the start of a canonical list is listed. -/
theorem Memory.cell_of_lt {lo a : Nat} {m : Memory} (h : m.wfFrom lo = true) (ha : a < lo) : m.cell a = 0 := by
  induction m generalizing lo with
  | nil => rfl
  | cons c m ih =>
    obtain ⟨k, b⟩ := c
    simp only [Memory.wfFrom, Bool.and_eq_true, decide_eq_true_eq] at h
    have hk : k ≠ a := by omega
    simp only [Memory.cell, hk, if_false]
    exact ih h.2 (by omega)

/-- `put` keeps the canonical form. -/
theorem Memory.put_wfFrom {lo a : Nat} {m : Memory} {b : Byte} (h : m.wfFrom lo = true) (hlo : lo ≤ a) (ha : a < 4096) :
    (m.put a b).wfFrom lo = true := by
  induction m generalizing lo with
  | nil => by_cases hb : b = 0x00#8 <;> simp [Memory.put, Memory.wfFrom, Config.memSize, hb, hlo, ha]
  | cons c m ih =>
    obtain ⟨k, d⟩ := c
    have h' := h
    simp only [Memory.wfFrom, Bool.and_eq_true, decide_eq_true_eq] at h
    obtain ⟨⟨⟨h1, h2⟩, h3⟩, h4⟩ := h
    unfold Memory.put
    split
    · split
      · exact h'
      · rename_i hak hb
        have hb' : b ≠ 0x00#8 := hb
        simp only [Memory.wfFrom, Bool.and_eq_true, decide_eq_true_eq, Config.memSize] at h2 ⊢
        exact ⟨⟨⟨hlo, ha⟩, hb'⟩, ⟨⟨by omega, h2⟩, h3⟩, h4⟩
    · split
      · rename_i hak
        split
        · exact Memory.wfFrom_mono (by omega) h4
        · rename_i hb
          have hb' : b ≠ 0x00#8 := hb
          simp only [Memory.wfFrom, Bool.and_eq_true, decide_eq_true_eq, Config.memSize] at h2 ⊢
          exact ⟨⟨⟨hlo, ha⟩, hb'⟩, hak ▸ h4⟩
      · simp only [Memory.wfFrom, Bool.and_eq_true, decide_eq_true_eq]
        exact ⟨⟨⟨h1, h2⟩, h3⟩, ih h4 (by omega)⟩

/-- Every write keeps the canonical form. -/
theorem Memory.write_wf {m : Memory} {a : Nat} {b : Byte} (h : m.wf = true) : (m.write a b).wf = true := by
  unfold Memory.write
  split
  · exact Memory.put_wfFrom h (Nat.zero_le a) ‹_›
  · exact h

/-! ### Reading after a write -/

theorem Memory.cell_put_self {lo a : Nat} {m : Memory} {b : Byte} (h : m.wfFrom lo = true) : (m.put a b).cell a = b := by
  induction m generalizing lo with
  | nil => by_cases hb : b = 0x00#8 <;> simp [Memory.put, Memory.cell, hb]
  | cons c m ih =>
    obtain ⟨k, d⟩ := c
    have h' := h
    simp only [Memory.wfFrom, Bool.and_eq_true, decide_eq_true_eq] at h
    unfold Memory.put
    split
    · split
      · rename_i hak hb
        have hk : k ≠ a := by omega
        simp only [Memory.cell, hk, if_false, hb]
        exact Memory.cell_of_lt h.2 (by omega)
      · simp [Memory.cell]
    · split
      · split
        · rename_i hak hb
          rw [hb]
          exact Memory.cell_of_lt h.2 (by omega)
        · simp [Memory.cell]
      · rename_i h1 h2
        have hk : k ≠ a := fun e => h2 e.symm
        simp only [Memory.cell, hk, if_false]
        exact ih h.2

theorem Memory.cell_put_of_ne {a a' : Nat} {m : Memory} {b : Byte} (hne : a' ≠ a) : (m.put a b).cell a' = m.cell a' := by
  have hne' : a ≠ a' := fun e => hne e.symm
  induction m with
  | nil => by_cases hb : b = 0x00#8 <;> simp [Memory.put, Memory.cell, hb, hne']
  | cons c m ih =>
    obtain ⟨k, d⟩ := c
    unfold Memory.put
    split
    · split
      · rfl
      · simp [Memory.cell, hne']
    · split
      · rename_i hak
        have hk : k ≠ a' := by omega
        split <;> simp [Memory.cell, hk, hne']
      · simp only [Memory.cell, ih]

theorem Memory.read_write_self {m : Memory} {a : Nat} {b : Byte} (h : m.wf = true) (ha : a < 4096) :
    (m.write a b).read a = some b := by
  rw [Memory.read_eq_some ha, Memory.write, if_pos ha, Memory.cell_put_self h]

theorem Memory.read_write_of_ne {m : Memory} {a a' : Nat} {b : Byte} (hne : a' ≠ a) :
    (m.write a b).read a' = m.read a' := by
  have h : (m.write a b).cell a' = m.cell a' := by
    unfold Memory.write
    split
    · exact Memory.cell_put_of_ne hne
    · rfl
  simp only [Memory.read, h]

/-! ### Sprite rows -/

/-- Rows that all lie inside memory are read, each the byte at its address. -/
theorem Memory.readRows_eq_some {m : Memory} {n a : Nat} (h : n = 0 ∨ a + n ≤ 4096) :
    m.readRows a n = some ((List.range n).map fun r => m.cell (a + r)) := by
  induction n generalizing a with
  | zero => rfl
  | succ n ih =>
    have ha : a < 4096 := by omega
    rw [Memory.readRows, Memory.read_eq_some ha, ih (by omega), List.range_succ_eq_map]
    simp [Function.comp_def, Nat.add_assoc, Nat.add_comm 1]

/-! ### The launch image -/

theorem Memory.imageFrom_wfFrom {a : Nat} {rom : List Byte} (h : a + rom.length ≤ 4096) :
    (Memory.imageFrom a rom).wfFrom a = true := by
  induction rom generalizing a with
  | nil => rfl
  | cons b bs ih =>
    have ih' := ih (a := a + 1) (by simpa [Nat.add_assoc, Nat.add_comm 1] using h)
    unfold Memory.imageFrom
    split
    · exact Memory.wfFrom_mono (by omega) ih'
    · rename_i hb
      have hb' : b ≠ 0x00#8 := hb
      simp only [List.length_cons] at h
      simp only [Memory.wfFrom, Bool.and_eq_true, decide_eq_true_eq, Config.memSize]
      exact ⟨⟨⟨Nat.le_refl a, by omega⟩, hb'⟩, ih'⟩

/-- Every launch image is canonical. -/
theorem Memory.image_wf (rom : List Byte) : (Memory.image rom).wf = true :=
  Memory.wfFrom_mono (Nat.zero_le _) (Memory.imageFrom_wfFrom (by
    simp only [List.length_take, Config.loadOffset, Config.romMax, Config.memSize]; omega))

theorem Memory.cell_imageFrom_of_lt {a a' : Nat} {rom : List Byte} (h : a' < a) : (Memory.imageFrom a rom).cell a' = 0 := by
  induction rom generalizing a with
  | nil => rfl
  | cons b bs ih =>
    have hne : a ≠ a' := by omega
    unfold Memory.imageFrom
    split
    · exact ih (by omega)
    · simp only [Memory.cell, hne, if_false]; exact ih (by omega)

/-- The image holds the list's bytes in order from its first address, and zero after them. -/
theorem Memory.cell_imageFrom_add {a j : Nat} {rom : List Byte} : (Memory.imageFrom a rom).cell (a + j) = rom.getD j 0 := by
  induction rom generalizing a j with
  | nil => simp [Memory.imageFrom, Memory.cell]
  | cons b bs ih =>
    cases j with
    | zero =>
      unfold Memory.imageFrom
      split
      · rename_i hb
        rw [Memory.cell_imageFrom_of_lt (by omega)]; simp [hb]
      · simp [Memory.cell]
    | succ j =>
      have hne : a ≠ a + (j + 1) := by omega
      have e : a + (j + 1) = a + 1 + j := by omega
      unfold Memory.imageFrom
      split
      · rw [e, ih]; simp
      · simp only [Memory.cell, hne, if_false]; rw [e, ih]; simp

end Sys2Proof.Machine
end

