-- ==== Sys2Proof/Laws/PerInstr.lean ====
section
/-! SUPPORT. Facts made per instruction. `RowOfEncoding`: the encoded word of a well-formed instruction selects that
instruction's own row of the opcode map (spec 30_encoding R98) and takes two bytes (R90). -/

namespace Sys2Proof.Laws

/-- Whether a word lies in the row of R98 that the instruction stands for. -/
def inOwnRow : Instr → Word → Bool
  | .cls _, w         => rowCls.selects w
  | .jp _, w          => rowJp.selects w
  | .ldVxByte _ _, w  => rowLdVxByte.selects w
  | .addVxByte _ _, w => rowAddVxByte.selects w
  | .ldI _, w         => rowLdI.selects w
  | .drw _ _ _, w     => rowDrw.selects w
  | .unknown _, w     => isUnknownWord w

def RowOfEncoding.Statement (i : Instr) : Prop :=
  i.wf = true → (encode i).length = 2 ∧ inOwnRow i (encodeWord i) = true

theorem RowOfEncoding.cls (x : Nibble) : RowOfEncoding.Statement (.cls x) := by
  intro _
  refine ⟨rfl, ?_⟩
  simp only [inOwnRow, rowCls, OpcodeRow.selects, encodeWord, beq_iff_eq]
  revert x; decide

theorem RowOfEncoding.jp (addr : Addr) : RowOfEncoding.Statement (.jp addr) := by
  intro _
  refine ⟨rfl, ?_⟩
  simp only [inOwnRow, rowJp, OpcodeRow.selects, encodeWord, beq_iff_eq]
  apply BitVec.eq_of_getLsbD_eq
  intro i hi
  interval_cases i <;> simp

theorem RowOfEncoding.ldVxByte (x : Reg) (nn : Byte) : RowOfEncoding.Statement (.ldVxByte x nn) := by
  intro _
  refine ⟨rfl, ?_⟩
  simp only [inOwnRow, rowLdVxByte, OpcodeRow.selects, encodeWord, beq_iff_eq]
  apply BitVec.eq_of_getLsbD_eq
  intro i hi
  fin_cases x <;> interval_cases i <;> simp

theorem RowOfEncoding.addVxByte (x : Reg) (nn : Byte) : RowOfEncoding.Statement (.addVxByte x nn) := by
  intro _
  refine ⟨rfl, ?_⟩
  simp only [inOwnRow, rowAddVxByte, OpcodeRow.selects, encodeWord, beq_iff_eq]
  apply BitVec.eq_of_getLsbD_eq
  intro i hi
  fin_cases x <;> interval_cases i <;> simp

theorem RowOfEncoding.ldI (addr : Addr) : RowOfEncoding.Statement (.ldI addr) := by
  intro _
  refine ⟨rfl, ?_⟩
  simp only [inOwnRow, rowLdI, OpcodeRow.selects, encodeWord, beq_iff_eq]
  apply BitVec.eq_of_getLsbD_eq
  intro i hi
  interval_cases i <;> simp

theorem RowOfEncoding.drw (x y : Reg) (n : Nibble) : RowOfEncoding.Statement (.drw x y n) := by
  intro _
  refine ⟨rfl, ?_⟩
  simp only [inOwnRow, rowDrw, OpcodeRow.selects, encodeWord, beq_iff_eq]
  revert x y n; decide +kernel

theorem RowOfEncoding.unknown (w : Word) : RowOfEncoding.Statement (.unknown w) := fun h => ⟨rfl, h⟩

end Sys2Proof.Laws
end

