-- ==== Sys2Proof/Laws/State.lean ====
section
/-! SUPPORT. What each update of the state does to each field: one lemma per field per update, so that no later proof
unfolds a record update. -/

namespace Sys2Proof.Machine

variable (s : State)

/-! ### `State.writeReg` -/

@[simp] theorem State.writeReg_v (x : Reg) (b : Byte) : (s.writeReg x b).v = s.v.set x b := rfl
@[simp] theorem State.writeReg_pc (x : Reg) (b : Byte) : (s.writeReg x b).pc = s.pc := rfl
@[simp] theorem State.writeReg_i (x : Reg) (b : Byte) : (s.writeReg x b).i = s.i := rfl
@[simp] theorem State.writeReg_stack (x : Reg) (b : Byte) : (s.writeReg x b).stack = s.stack := rfl
@[simp] theorem State.writeReg_disp (x : Reg) (b : Byte) : (s.writeReg x b).disp = s.disp := rfl
@[simp] theorem State.writeReg_mem (x : Reg) (b : Byte) : (s.writeReg x b).mem = s.mem := rfl
@[simp] theorem State.writeReg_status (x : Reg) (b : Byte) : (s.writeReg x b).status = s.status := rfl
@[simp] theorem State.writeReg_events (x : Reg) (b : Byte) : (s.writeReg x b).events = s.events := rfl

/-! ### `State.setPc` -/

@[simp] theorem State.setPc_v (w : Word) : (s.setPc w).v = s.v := rfl
@[simp] theorem State.setPc_pc (w : Word) : (s.setPc w).pc = w := rfl
@[simp] theorem State.setPc_i (w : Word) : (s.setPc w).i = s.i := rfl
@[simp] theorem State.setPc_stack (w : Word) : (s.setPc w).stack = s.stack := rfl
@[simp] theorem State.setPc_disp (w : Word) : (s.setPc w).disp = s.disp := rfl
@[simp] theorem State.setPc_mem (w : Word) : (s.setPc w).mem = s.mem := rfl
@[simp] theorem State.setPc_status (w : Word) : (s.setPc w).status = s.status := rfl
@[simp] theorem State.setPc_events (w : Word) : (s.setPc w).events = s.events := rfl

/-! ### `State.advance` -/

@[simp] theorem State.advance_v : s.advance.v = s.v := rfl
@[simp] theorem State.advance_pc : s.advance.pc = s.pc + 2#16 := rfl
@[simp] theorem State.advance_i : s.advance.i = s.i := rfl
@[simp] theorem State.advance_stack : s.advance.stack = s.stack := rfl
@[simp] theorem State.advance_disp : s.advance.disp = s.disp := rfl
@[simp] theorem State.advance_mem : s.advance.mem = s.mem := rfl
@[simp] theorem State.advance_status : s.advance.status = s.status := rfl
@[simp] theorem State.advance_events : s.advance.events = s.events := rfl

/-! ### `State.setI` -/

@[simp] theorem State.setI_v (w : Word) : (s.setI w).v = s.v := rfl
@[simp] theorem State.setI_pc (w : Word) : (s.setI w).pc = s.pc := rfl
@[simp] theorem State.setI_i (w : Word) : (s.setI w).i = w := rfl
@[simp] theorem State.setI_stack (w : Word) : (s.setI w).stack = s.stack := rfl
@[simp] theorem State.setI_disp (w : Word) : (s.setI w).disp = s.disp := rfl
@[simp] theorem State.setI_mem (w : Word) : (s.setI w).mem = s.mem := rfl
@[simp] theorem State.setI_status (w : Word) : (s.setI w).status = s.status := rfl
@[simp] theorem State.setI_events (w : Word) : (s.setI w).events = s.events := rfl

/-! ### `State.clearDisplay` -/

@[simp] theorem State.clearDisplay_v : s.clearDisplay.v = s.v := rfl
@[simp] theorem State.clearDisplay_pc : s.clearDisplay.pc = s.pc := rfl
@[simp] theorem State.clearDisplay_i : s.clearDisplay.i = s.i := rfl
@[simp] theorem State.clearDisplay_stack : s.clearDisplay.stack = s.stack := rfl
@[simp] theorem State.clearDisplay_disp : s.clearDisplay.disp = Display.blank := rfl
@[simp] theorem State.clearDisplay_mem : s.clearDisplay.mem = s.mem := rfl
@[simp] theorem State.clearDisplay_status : s.clearDisplay.status = s.status := rfl
@[simp] theorem State.clearDisplay_events : s.clearDisplay.events = s.events := rfl

/-! ### `State.toggleCell` -/

@[simp] theorem State.toggleCell_v (x : Fin 64) (y : Fin 32) : (s.toggleCell x y).v = s.v := rfl
@[simp] theorem State.toggleCell_pc (x : Fin 64) (y : Fin 32) : (s.toggleCell x y).pc = s.pc := rfl
@[simp] theorem State.toggleCell_i (x : Fin 64) (y : Fin 32) : (s.toggleCell x y).i = s.i := rfl
@[simp] theorem State.toggleCell_stack (x : Fin 64) (y : Fin 32) : (s.toggleCell x y).stack = s.stack := rfl
@[simp] theorem State.toggleCell_disp (x : Fin 64) (y : Fin 32) : (s.toggleCell x y).disp = Display.put s.disp x y (Display.get s.disp x y ^^ true) := rfl
@[simp] theorem State.toggleCell_mem (x : Fin 64) (y : Fin 32) : (s.toggleCell x y).mem = s.mem := rfl
@[simp] theorem State.toggleCell_status (x : Fin 64) (y : Fin 32) : (s.toggleCell x y).status = s.status := rfl
@[simp] theorem State.toggleCell_events (x : Fin 64) (y : Fin 32) : (s.toggleCell x y).events = s.events := rfl

/-! ### `State.emit` -/

@[simp] theorem State.emit_v (e : Event) : (s.emit e).v = s.v := rfl
@[simp] theorem State.emit_pc (e : Event) : (s.emit e).pc = s.pc := rfl
@[simp] theorem State.emit_i (e : Event) : (s.emit e).i = s.i := rfl
@[simp] theorem State.emit_stack (e : Event) : (s.emit e).stack = s.stack := rfl
@[simp] theorem State.emit_disp (e : Event) : (s.emit e).disp = s.disp := rfl
@[simp] theorem State.emit_mem (e : Event) : (s.emit e).mem = s.mem := rfl
@[simp] theorem State.emit_status (e : Event) : (s.emit e).status = s.status := rfl
@[simp] theorem State.emit_events (e : Event) : (s.emit e).events = s.events ++ [e] := rfl

/-! ### `State.raiseFault` -/

@[simp] theorem State.raiseFault_v (c : Cause) (a : Word) : (s.raiseFault c a).v = s.v := rfl
@[simp] theorem State.raiseFault_pc (c : Cause) (a : Word) : (s.raiseFault c a).pc = s.pc := rfl
@[simp] theorem State.raiseFault_i (c : Cause) (a : Word) : (s.raiseFault c a).i = s.i := rfl
@[simp] theorem State.raiseFault_stack (c : Cause) (a : Word) : (s.raiseFault c a).stack = s.stack := rfl
@[simp] theorem State.raiseFault_disp (c : Cause) (a : Word) : (s.raiseFault c a).disp = s.disp := rfl
@[simp] theorem State.raiseFault_mem (c : Cause) (a : Word) : (s.raiseFault c a).mem = s.mem := rfl
@[simp] theorem State.raiseFault_status (c : Cause) (a : Word) : (s.raiseFault c a).status = .faulted c a := rfl
@[simp] theorem State.raiseFault_events (c : Cause) (a : Word) : (s.raiseFault c a).events = s.events := rfl

/-! ### `State.clearCollision` -/

@[simp] theorem State.clearCollision_v : s.clearCollision.v = s.v.set flagReg 0x00#8 := rfl
@[simp] theorem State.clearCollision_pc : s.clearCollision.pc = s.pc := rfl
@[simp] theorem State.clearCollision_i : s.clearCollision.i = s.i := rfl
@[simp] theorem State.clearCollision_stack : s.clearCollision.stack = s.stack := rfl
@[simp] theorem State.clearCollision_disp : s.clearCollision.disp = s.disp := rfl
@[simp] theorem State.clearCollision_mem : s.clearCollision.mem = s.mem := rfl
@[simp] theorem State.clearCollision_status : s.clearCollision.status = s.status := rfl
@[simp] theorem State.clearCollision_events : s.clearCollision.events = s.events := rfl

/-! ### `State.setCollision` -/

@[simp] theorem State.setCollision_v : s.setCollision.v = s.v.set flagReg 0x01#8 := rfl
@[simp] theorem State.setCollision_pc : s.setCollision.pc = s.pc := rfl
@[simp] theorem State.setCollision_i : s.setCollision.i = s.i := rfl
@[simp] theorem State.setCollision_stack : s.setCollision.stack = s.stack := rfl
@[simp] theorem State.setCollision_disp : s.setCollision.disp = s.disp := rfl
@[simp] theorem State.setCollision_mem : s.setCollision.mem = s.mem := rfl
@[simp] theorem State.setCollision_status : s.setCollision.status = s.status := rfl
@[simp] theorem State.setCollision_events : s.setCollision.events = s.events := rfl

/-! ### `State.load` -/

@[simp] theorem State.load_v (rom : List Byte) : (s.load rom).v = s.v := rfl
@[simp] theorem State.load_pc (rom : List Byte) : (s.load rom).pc = s.pc := rfl
@[simp] theorem State.load_i (rom : List Byte) : (s.load rom).i = s.i := rfl
@[simp] theorem State.load_stack (rom : List Byte) : (s.load rom).stack = s.stack := rfl
@[simp] theorem State.load_disp (rom : List Byte) : (s.load rom).disp = s.disp := rfl
@[simp] theorem State.load_mem (rom : List Byte) : (s.load rom).mem = Memory.image rom := rfl
@[simp] theorem State.load_status (rom : List Byte) : (s.load rom).status = s.status := rfl
@[simp] theorem State.load_events (rom : List Byte) : (s.load rom).events = s.events := rfl

/-! ### `State.placeWord` -/

@[simp] theorem State.placeWord_v (w : Word) : (s.placeWord w).v = s.v := rfl
@[simp] theorem State.placeWord_pc (w : Word) : (s.placeWord w).pc = s.pc := rfl
@[simp] theorem State.placeWord_i (w : Word) : (s.placeWord w).i = s.i := rfl
@[simp] theorem State.placeWord_stack (w : Word) : (s.placeWord w).stack = s.stack := rfl
@[simp] theorem State.placeWord_disp (w : Word) : (s.placeWord w).disp = s.disp := rfl
@[simp] theorem State.placeWord_mem (w : Word) : (s.placeWord w).mem = (s.mem.write s.pc.toNat (hiByte w)).write (s.pc.toNat + 1) (loByte w) := rfl
@[simp] theorem State.placeWord_status (w : Word) : (s.placeWord w).status = .running := rfl
@[simp] theorem State.placeWord_events (w : Word) : (s.placeWord w).events = s.events := rfl

/-! ### `State.resetWith` -/

@[simp] theorem State.resetWith_pc (r : Word) : (State.resetWith r).pc = 0x0200#16 := rfl
@[simp] theorem State.resetWith_i (r : Word) : (State.resetWith r).i = r := rfl
@[simp] theorem State.resetWith_mem (r : Word) : (State.resetWith r).mem = [] := rfl
@[simp] theorem State.resetWith_status (r : Word) : (State.resetWith r).status = .running := rfl
@[simp] theorem State.resetWith_events (r : Word) : (State.resetWith r).events = [] := rfl
@[simp] theorem State.resetWith_stack (r : Word) : (State.resetWith r).stack = Vector.replicate 16 0x0000#16 := rfl
@[simp] theorem State.resetWith_v (r : Word) : (State.resetWith r).v = Vector.replicate 16 0x00#8 := rfl
@[simp] theorem State.resetWith_disp (r : Word) : (State.resetWith r).disp = Display.blank := rfl

/-! ### Reading a register after a write -/

@[simp] theorem State.readReg_writeReg_self (x : Reg) (b : Byte) : (s.writeReg x b).readReg x = b := by
  simp [State.readReg, State.writeReg]

theorem State.readReg_writeReg_of_ne {x y : Reg} (b : Byte) (h : y ≠ x) :
    (s.writeReg x b).readReg y = s.readReg y := by
  have h' : x.val ≠ y.val := fun e => h (Fin.ext e.symm)
  simp [State.readReg, State.writeReg, h']

end Sys2Proof.Machine
end

