-- ==== Sys2Proof/Laws/Sprite.lean ====
section
/-! SUPPORT. The sprite renderer: what plotting a list of cells does to each part of the state, which cells a sprite
covers, and that it covers no cell twice (spec 45_drw R185). -/

namespace Sys2Proof.Machine

/-! ### Display cells -/

theorem Display.get_put (d : Display) (x x' : Fin 64) (y y' : Fin 32) (c : Bool) :
    Display.get (Display.put d x y c) x' y' = if x = x' ∧ y = y' then c else Display.get d x' y' := by
  by_cases hx : x = x'
  · subst hx
    by_cases hy : y = y'
    · subst hy; simp [Display.get, Display.put]
    · have hy' : y.val ≠ y'.val := fun e => hy (Fin.ext e)
      simp [Display.get, Display.put, hy, hy']
  · have hx' : x.val ≠ x'.val := fun e => hx (Fin.ext e)
    simp [Display.get, Display.put, hx, hx']

@[simp] theorem Display.get_blank (x : Fin 64) (y : Fin 32) : Display.get Display.blank x y = false := by
  simp [Display.get, Display.blank]

/-- Two displays with the same cells are the same display. -/
theorem Display.ext_get {d e : Display} (h : ∀ x y, Display.get d x y = Display.get e x y) : d = e := by
  apply Vector.ext
  intro i hi
  apply Vector.ext
  intro j hj
  exact h ⟨i, hi⟩ ⟨j, hj⟩

/-! ### Plotting one cell -/

variable (s : State) (c : Fin 64 × Fin 32) (cs : List (Fin 64 × Fin 32))

theorem State.noteCollision_cases (x : Fin 64) (y : Fin 32) :
    (Display.get s.disp x y = true ∧ s.noteCollision x y = s.setCollision) ∨
    (Display.get s.disp x y = false ∧ s.noteCollision x y = s) := by
  unfold State.noteCollision
  cases h : Display.get s.disp x y <;> simp

@[simp] theorem State.plot_pc : (s.plot c).pc = s.pc := by
  rcases s.noteCollision_cases c.1 c.2 with ⟨_, h⟩ | ⟨_, h⟩ <;> simp [State.plot, h]
@[simp] theorem State.plot_i : (s.plot c).i = s.i := by
  rcases s.noteCollision_cases c.1 c.2 with ⟨_, h⟩ | ⟨_, h⟩ <;> simp [State.plot, h]
@[simp] theorem State.plot_stack : (s.plot c).stack = s.stack := by
  rcases s.noteCollision_cases c.1 c.2 with ⟨_, h⟩ | ⟨_, h⟩ <;> simp [State.plot, h]
@[simp] theorem State.plot_mem : (s.plot c).mem = s.mem := by
  rcases s.noteCollision_cases c.1 c.2 with ⟨_, h⟩ | ⟨_, h⟩ <;> simp [State.plot, h]
@[simp] theorem State.plot_status : (s.plot c).status = s.status := by
  rcases s.noteCollision_cases c.1 c.2 with ⟨_, h⟩ | ⟨_, h⟩ <;> simp [State.plot, h]
@[simp] theorem State.plot_events : (s.plot c).events = s.events := by
  rcases s.noteCollision_cases c.1 c.2 with ⟨_, h⟩ | ⟨_, h⟩ <;> simp [State.plot, h]

/-- Plotting a cell toggles that cell and no other. -/
theorem State.plot_disp (x : Fin 64) (y : Fin 32) :
    Display.get (s.plot c).disp x y = (Display.get s.disp x y ^^ decide (c = (x, y))) := by
  have h : (s.plot c).disp = Display.put s.disp c.1 c.2 (Display.get s.disp c.1 c.2 ^^ true) := by
    rcases s.noteCollision_cases c.1 c.2 with ⟨_, h⟩ | ⟨_, h⟩ <;> simp [State.plot, h]
  rw [h, Display.get_put]
  by_cases hc : c = (x, y)
  · subst hc; simp
  · have : ¬ (c.1 = x ∧ c.2 = y) := fun ⟨h1, h2⟩ => hc (Prod.ext h1 h2)
    simp [this, hc]

/-- Plotting a cell writes no register but `V[15]`. -/
theorem State.plot_readReg {r : Reg} (hr : r ≠ flagReg) : (s.plot c).readReg r = s.readReg r := by
  rcases s.noteCollision_cases c.1 c.2 with ⟨_, h⟩ | ⟨_, h⟩
  · rw [State.plot, h]; exact State.readReg_writeReg_of_ne s _ hr
  · rw [State.plot, h]; rfl

/-- Plotting a cell that is on sets the flag, and otherwise leaves it. -/
theorem State.plot_flag :
    (s.plot c).readReg flagReg = if Display.get s.disp c.1 c.2 then 0x01#8 else s.readReg flagReg := by
  rcases s.noteCollision_cases c.1 c.2 with ⟨hg, h⟩ | ⟨hg, h⟩
  · rw [State.plot, h, hg]; exact State.readReg_writeReg_self s flagReg 0x01#8
  · rw [State.plot, h, hg]; rfl

/-! ### Plotting a list of cells -/

@[simp] theorem State.plotAll_nil : s.plotAll [] = s := rfl
@[simp] theorem State.plotAll_cons : s.plotAll (c :: cs) = (s.plot c).plotAll cs := rfl

@[simp] theorem State.plotAll_pc : (s.plotAll cs).pc = s.pc := by
  induction cs generalizing s with
  | nil => rfl
  | cons c cs ih => simp [ih]
@[simp] theorem State.plotAll_i : (s.plotAll cs).i = s.i := by
  induction cs generalizing s with
  | nil => rfl
  | cons c cs ih => simp [ih]
@[simp] theorem State.plotAll_stack : (s.plotAll cs).stack = s.stack := by
  induction cs generalizing s with
  | nil => rfl
  | cons c cs ih => simp [ih]
@[simp] theorem State.plotAll_mem : (s.plotAll cs).mem = s.mem := by
  induction cs generalizing s with
  | nil => rfl
  | cons c cs ih => simp [ih]
@[simp] theorem State.plotAll_status : (s.plotAll cs).status = s.status := by
  induction cs generalizing s with
  | nil => rfl
  | cons c cs ih => simp [ih]
@[simp] theorem State.plotAll_events : (s.plotAll cs).events = s.events := by
  induction cs generalizing s with
  | nil => rfl
  | cons c cs ih => simp [ih]

theorem State.plotAll_readReg {r : Reg} (hr : r ≠ flagReg) : (s.plotAll cs).readReg r = s.readReg r := by
  induction cs generalizing s with
  | nil => rfl
  | cons c cs ih => rw [State.plotAll_cons, ih, State.plot_readReg s c hr]

/-- Cells plotted once each are toggled; all others stay. -/
theorem State.plotAll_disp (hcs : cs.Nodup) (x : Fin 64) (y : Fin 32) :
    Display.get (s.plotAll cs).disp x y = (Display.get s.disp x y ^^ decide ((x, y) ∈ cs)) := by
  induction cs generalizing s with
  | nil => simp
  | cons c cs ih =>
    obtain ⟨hc, hcs⟩ := List.nodup_cons.mp hcs
    rw [State.plotAll_cons, ih _ hcs, State.plot_disp]
    by_cases e : c = (x, y)
    · subst e; simp [hc]
    · have e' : ¬ (x, y) = c := fun h => e h.symm
      simp [e, e']

/-- The flag after plotting cells once each: 1 if one of them was on, else as it was. -/
theorem State.plotAll_flag (hcs : cs.Nodup) :
    (s.plotAll cs).readReg flagReg =
      if ∃ c ∈ cs, Display.get s.disp c.1 c.2 = true then 0x01#8 else s.readReg flagReg := by
  induction cs generalizing s with
  | nil => simp
  | cons c cs ih =>
    obtain ⟨hc, hcs⟩ := List.nodup_cons.mp hcs
    have key : ∀ d ∈ cs, Display.get (s.plot c).disp d.1 d.2 = Display.get s.disp d.1 d.2 := by
      intro d hd
      have hne : ¬ c = (d.1, d.2) := fun e => hc (e ▸ hd)
      rw [State.plot_disp]; simp [hne]
    have hiff : (∃ d ∈ cs, Display.get (s.plot c).disp d.1 d.2 = true) ↔ ∃ d ∈ cs, Display.get s.disp d.1 d.2 = true :=
      exists_congr fun d => and_congr_right fun hd => by rw [key d hd]
    rw [State.plotAll_cons, ih _ hcs, State.plot_flag]
    simp only [hiff, List.mem_cons, exists_eq_or_imp]
    by_cases h1 : ∃ d ∈ cs, Display.get s.disp d.1 d.2 = true
    · simp [h1]
    · by_cases h2 : Display.get s.disp c.1 c.2 = true <;> simp [h1, h2]

/-! ### The cells of a sprite -/

theorem mem_rowCells {x y r : Nat} {row : Byte} {c : Fin 64 × Fin 32} :
    c ∈ rowCells x y r row ↔ ∃ b < 8, spriteBit row b = true ∧ c = (pixelColumn x b, pixelRow y r) := by
  simp only [rowCells, List.mem_map, List.mem_filter, List.mem_range, Config.spriteW]
  constructor
  · rintro ⟨b, ⟨hb, hs⟩, rfl⟩; exact ⟨b, hb, hs, rfl⟩
  · rintro ⟨b, hb, hs, rfl⟩; exact ⟨b, ⟨hb, hs⟩, rfl⟩

theorem mem_cellsFrom {x y r : Nat} {rows : List Byte} {c : Fin 64 × Fin 32} :
    c ∈ cellsFrom x y r rows ↔ ∃ k < rows.length, ∃ b < 8,
      spriteBit (rows.getD k 0) b = true ∧ c = (pixelColumn x b, pixelRow y (r + k)) := by
  induction rows generalizing r with
  | nil => simp [cellsFrom]
  | cons row rows ih =>
    rw [cellsFrom, List.mem_append, mem_rowCells, ih]
    constructor
    · rintro (⟨b, hb, hs, rfl⟩ | ⟨k, hk, b, hb, hs, rfl⟩)
      · exact ⟨0, by simp, b, hb, by simpa using hs, by simp⟩
      · exact ⟨k + 1, by simpa using hk, b, hb, by simpa using hs, by rw [Nat.add_assoc, Nat.add_comm 1]⟩
    · rintro ⟨k, hk, b, hb, hs, rfl⟩
      cases k with
      | zero => exact .inl ⟨b, hb, by simpa using hs, by simp⟩
      | succ k =>
        exact .inr ⟨k, by simpa using hk, b, hb, by simpa using hs, by rw [Nat.add_assoc, Nat.add_comm 1]⟩

theorem pixelColumn_injOn {x b b' : Nat} (hb : b < 8) (hb' : b' < 8) (h : pixelColumn x b = pixelColumn x b') : b = b' := by
  have := congrArg Fin.val h
  simp only [pixelColumn, Fin.val_ofNat] at this
  omega

theorem pixelRow_injOn {y r r' : Nat} (hr : r < 32) (hr' : r' < 32) (h : pixelRow y r = pixelRow y r') : r = r' := by
  have := congrArg Fin.val h
  simp only [pixelRow, Fin.val_ofNat] at this
  omega

theorem rowCells_nodup {x y r : Nat} {row : Byte} : (rowCells x y r row).Nodup := by
  refine List.Nodup.map_on ?_ (List.nodup_range.filter _)
  intro b hb b' hb' h
  simp only [List.mem_filter, List.mem_range, Config.spriteW] at hb hb'
  exact pixelColumn_injOn hb.1 hb'.1 (Prod.mk.inj h).1

/-- A sprite of at most 32 rows covers no cell twice (R185). -/
theorem cellsFrom_nodup {x y r : Nat} {rows : List Byte} (h : r + rows.length ≤ 32) : (cellsFrom x y r rows).Nodup := by
  induction rows generalizing r with
  | nil => exact List.nodup_nil
  | cons row rows ih =>
    simp only [List.length_cons] at h
    refine List.Nodup.append rowCells_nodup (ih (by omega)) ?_
    intro c hc hc'
    obtain ⟨b, _, _, rfl⟩ := mem_rowCells.mp hc
    obtain ⟨k, hk, b', _, _, e⟩ := mem_cellsFrom.mp hc'
    have := pixelRow_injOn (y := y) (by omega) (by omega) (Prod.mk.inj e).2
    omega

end Sys2Proof.Machine
end

