-- ==== Sys2Proof/Laws/Step.lean ====
section
/-! SUPPORT. What each shared operation, each meaning and one step can do: one lemma each, to be cited instead of unfolding. -/

namespace Sys2Proof.Machine

/-! ### Range tests and fault addresses -/

theorem faultAddr_toNat (w : Word) : (faultAddr w).toNat = max w.toNat 0x1000 := by
  have h : max w.toNat 0x1000 < 2 ^ 16 := by have := w.isLt; omega
  simp only [faultAddr, BitVec.toNat_ofNat, Nat.mod_eq_of_lt h]

theorem spriteOutOfRange_iff {i : Word} {n : Nibble} :
    spriteOutOfRange i n = true ↔ 0 < n.toNat ∧ 4095 < i.toNat + n.toNat - 1 := by
  simp [spriteOutOfRange]

theorem spriteFits_iff {s : State} {n : Nibble} : SpriteFits s n ↔ spriteOutOfRange s.i n = false := by
  rw [← Bool.not_eq_true, spriteOutOfRange_iff, SpriteFits]
  omega

/-- The rows a sprite at `I` of height `n` reads. -/
def spriteRows (s : State) (n : Nibble) : List Byte := (List.range n.toNat).map fun r => s.mem.cell (s.i.toNat + r)

@[simp] theorem spriteRows_length (s : State) (n : Nibble) : (spriteRows s n).length = n.toNat := by simp [spriteRows]

theorem spriteRows_getD {s : State} {n : Nibble} {r : Nat} (hr : r < n.toNat) :
    (spriteRows s n).getD r 0 = s.mem.cell (s.i.toNat + r) := by
  simp [spriteRows, List.getD_eq_getElem?_getD, hr]

/-! ### The meanings -/

theorem execDrw_of_fits {s : State} {x y : Reg} {n : Nibble} (h : SpriteFits s n) :
    execDrw x y n s = .next (s.drawSprite x y (spriteRows s n)) := by
  have h' := h
  have hr : s.mem.readRows s.i.toNat n.toNat = some (spriteRows s n) :=
    Memory.readRows_eq_some (by rcases h with h | h <;> omega)
  rw [spriteFits_iff] at h'
  simp [execDrw, h', hr]

theorem execDrw_of_not_fits {s : State} {x y : Reg} {n : Nibble} (h : ¬ SpriteFits s n) :
    execDrw x y n s = .next (s.raiseFault .spriteReadOutOfRange (faultAddr s.i)) := by
  rw [spriteFits_iff, Bool.not_eq_false] at h
  simp [execDrw, h]

/-- Everything a meaning can answer: the state it was given with `status` faulted (DRW out of range), or the effect its
rule gives; never a fault or a refusal. -/
theorem exec_cases (i : Instr) (s : State) :
    (∃ x, i = .cls x ∧ exec i s = .next s.advance.clearDisplay) ∨
    (∃ a, i = .jp a ∧ exec i s = .next (s.advance.setPc (addrOperand a))) ∨
    (∃ x nn, i = .ldVxByte x nn ∧ exec i s = .next (s.advance.writeReg x nn)) ∨
    (∃ x nn, i = .addVxByte x nn ∧ exec i s = .next (s.advance.writeReg x (s.readReg x + nn))) ∨
    (∃ a, i = .ldI a ∧ exec i s = .next (s.advance.setI (addrOperand a))) ∨
    (∃ x y n, i = .drw x y n ∧ SpriteFits s n ∧ exec i s = .next (s.drawSprite x y (spriteRows s n))) ∨
    (∃ x y n, i = .drw x y n ∧ ¬ SpriteFits s n ∧
      exec i s = .next (s.raiseFault .spriteReadOutOfRange (faultAddr s.i))) ∨
    (∃ w, i = .unknown w ∧ exec i s = .next (s.advance.emit (.diag .unknownInstruction w s.pc))) := by
  cases i with
  | cls x => exact .inl ⟨x, rfl, rfl⟩
  | jp a => exact .inr (.inl ⟨a, rfl, rfl⟩)
  | ldVxByte x nn => exact .inr (.inr (.inl ⟨x, nn, rfl, rfl⟩))
  | addVxByte x nn => exact .inr (.inr (.inr (.inl ⟨x, nn, rfl, rfl⟩)))
  | ldI a => exact .inr (.inr (.inr (.inr (.inl ⟨a, rfl, rfl⟩))))
  | drw x y n =>
    by_cases h : SpriteFits s n
    · exact .inr (.inr (.inr (.inr (.inr (.inl ⟨x, y, n, rfl, h, execDrw_of_fits h⟩)))))
    · exact .inr (.inr (.inr (.inr (.inr (.inr (.inl ⟨x, y, n, rfl, h, execDrw_of_not_fits h⟩))))))
  | unknown w => exact .inr (.inr (.inr (.inr (.inr (.inr (.inr ⟨w, rfl, rfl⟩))))))

/-! ### A drawn sprite -/

section Draw

variable (s : State) (x y : Reg) (rows : List Byte)

@[simp] theorem State.drawSprite_pc : (s.drawSprite x y rows).pc = s.pc + 2#16 := by simp [State.drawSprite]
@[simp] theorem State.drawSprite_i : (s.drawSprite x y rows).i = s.i := by simp [State.drawSprite]
@[simp] theorem State.drawSprite_stack : (s.drawSprite x y rows).stack = s.stack := by simp [State.drawSprite]
@[simp] theorem State.drawSprite_mem : (s.drawSprite x y rows).mem = s.mem := by simp [State.drawSprite]
@[simp] theorem State.drawSprite_status : (s.drawSprite x y rows).status = s.status := by simp [State.drawSprite]
@[simp] theorem State.drawSprite_events : (s.drawSprite x y rows).events = s.events ++ [.refresh] := by
  simp [State.drawSprite]

theorem State.drawSprite_readReg {r : Reg} (hr : r ≠ flagReg) : (s.drawSprite x y rows).readReg r = s.readReg r := by
  have h1 : (s.drawSprite x y rows).readReg r =
      (s.advance.clearCollision.plotAll (cellsFrom (baseColumn (s.readReg x)) (baseRow (s.readReg y)) 0 rows)).readReg r := rfl
  rw [h1, State.plotAll_readReg _ _ hr]
  exact State.readReg_writeReg_of_ne s.advance 0x00#8 hr

/-- Drawing toggles exactly the cells under the sprite's set bits. -/
theorem State.drawSprite_disp (h : rows.length ≤ 32) (px : Fin 64) (py : Fin 32) :
    Display.get (s.drawSprite x y rows).disp px py = (Display.get s.disp px py ^^
      decide ((px, py) ∈ cellsFrom (baseColumn (s.readReg x)) (baseRow (s.readReg y)) 0 rows)) := by
  have h1 : (s.drawSprite x y rows).disp =
      (s.advance.clearCollision.plotAll (cellsFrom (baseColumn (s.readReg x)) (baseRow (s.readReg y)) 0 rows)).disp := rfl
  rw [h1, State.plotAll_disp _ _ (cellsFrom_nodup (by omega))]
  rfl

/-- The collision flag after drawing: 1 if a cell under a set bit was on, else 0. -/
theorem State.drawSprite_flag (h : rows.length ≤ 32) :
    (s.drawSprite x y rows).readReg flagReg =
      if ∃ c ∈ cellsFrom (baseColumn (s.readReg x)) (baseRow (s.readReg y)) 0 rows, Display.get s.disp c.1 c.2 = true
      then 0x01#8 else 0x00#8 := by
  have h1 : (s.drawSprite x y rows).readReg flagReg =
      (s.advance.clearCollision.plotAll
        (cellsFrom (baseColumn (s.readReg x)) (baseRow (s.readReg y)) 0 rows)).readReg flagReg := rfl
  have h2 : s.advance.clearCollision.readReg flagReg = 0x00#8 := State.readReg_writeReg_self _ _ _
  rw [h1, State.plotAll_flag _ _ (cellsFrom_nodup (by omega)), h2]
  rfl

end Draw

/-! ### The sprite mask -/

/-- For a sprite that fits, the mask of R185 is the set of cells the renderer plots. -/
theorem spriteMask_iff {s : State} {x y : Reg} {n : Nibble} (h : SpriteFits s n) (px : Fin 64) (py : Fin 32) :
    SpriteMask s x y n px py ↔
      (px, py) ∈ cellsFrom (baseColumn (s.readReg x)) (baseRow (s.readReg y)) 0 (spriteRows s n) := by
  have bit : ∀ r < n.toNat, ∀ b, SpriteBitSet s r b ↔ spriteBit ((spriteRows s n).getD r 0) b = true := by
    intro r hr b
    have ha : s.i.toNat + r < 4096 := by rcases h with h | h <;> omega
    rw [spriteRows_getD hr, SpriteBitSet, Memory.read_eq_some ha]
    rfl
  have cell : ∀ r b, (px.val = ((s.v[x]).toNat % 64 + b) % 64 ∧ py.val = ((s.v[y]).toNat % 32 + r) % 32) ↔
      (px, py) = (pixelColumn (baseColumn (s.readReg x)) b, pixelRow (baseRow (s.readReg y)) (0 + r)) := by
    intro r b
    rw [Prod.mk.injEq, Fin.ext_iff, Fin.ext_iff, Nat.zero_add]
    rfl
  rw [mem_cellsFrom, spriteRows_length]
  constructor
  · rintro ⟨r, hr, b, hb, hs, hc⟩
    exact ⟨r, hr, b, hb, (bit r hr b).mp hs, (cell r b).mp hc⟩
  · rintro ⟨r, hr, b, hb, hs, hc⟩
    exact ⟨r, hr, b, hb, (bit r hr b).mpr hs, (cell r b).mpr hc⟩

/-! ### Fetch and step -/

theorem fetchThen_of_gt {s : State} (k : Byte → Byte → Answer) (h : 0x0FFE < s.pc.toNat) :
    fetchThen s k = .next (s.raiseFault .fetchOutOfRange (faultAddr s.pc)) := if_pos h

theorem fetchThen_of_le {s : State} (k : Byte → Byte → Answer) (h : s.pc.toNat ≤ 0x0FFE) :
    fetchThen s k = k (s.mem.cell s.pc.toNat) (s.mem.cell (s.pc.toNat + 1)) := by
  rw [fetchThen, if_neg (by omega), Memory.readThen_of_lt _ (by omega), Memory.readThen_of_lt _ (by omega)]

/-- The instruction at `pc`. -/
def instrAtPc (s : State) : Instr := decodeBytes (s.mem.cell s.pc.toNat) (s.mem.cell (s.pc.toNat + 1))

theorem step_of_faulted {s : State} {c : Cause} {a : Word} (h : s.status = .faulted c a) : step s = .next s := by
  simp [step, h]

theorem step_of_running {s : State} (h : s.status = .running) :
    step s = fetchThen s fun b0 b1 => exec (decodeBytes b0 b1) s := by
  simp [step, h]

/-- Everything a step can do: nothing (faulted), the fetch fault, or the meaning of the instruction at `pc`. -/
theorem step_cases (s : State) :
    ((∃ c a, s.status = .faulted c a) ∧ step s = .next s) ∨
    (s.status = .running ∧ 0x0FFE < s.pc.toNat ∧
      step s = .next (s.raiseFault .fetchOutOfRange (faultAddr s.pc))) ∨
    (s.status = .running ∧ s.pc.toNat ≤ 0x0FFE ∧ step s = exec (instrAtPc s) s) := by
  cases h : s.status with
  | faulted c a => exact .inl ⟨⟨c, a, rfl⟩, step_of_faulted h⟩
  | running =>
    by_cases hp : 0x0FFE < s.pc.toNat
    · exact .inr (.inl ⟨rfl, hp, by rw [step_of_running h, fetchThen_of_gt _ hp]⟩)
    · exact .inr (.inr ⟨rfl, by omega, by rw [step_of_running h, fetchThen_of_le _ (by omega)]; rfl⟩)

/-- The two bytes at `pc` are the word there. -/
theorem instrAtPc_of_wordAtPc {s : State} {w : Word} (h : WordAtPc s w) : instrAtPc s = decodeBytes (hiByte w) (loByte w) := by
  have h0 := h.byte0
  have h1 := h.byte1
  have hr := h.inRange
  rw [Memory.read_eq_some (by omega)] at h0 h1
  rw [instrAtPc, Option.some.inj h0, Option.some.inj h1]
  rfl

/-- A step with the word `w` at `pc` is the meaning of the instruction `w` decodes to. -/
theorem step_of_wordAtPc {s : State} {w : Word} (h : WordAtPc s w) : step s = exec (decodeBytes (hiByte w) (loByte w)) s := by
  rw [step_of_running h.running, fetchThen_of_le _ h.inRange, ← instrAtPc_of_wordAtPc h]
  rfl

/-- Some word stands at `pc` of a running engine whose `pc` can be fetched from. -/
theorem exists_wordAtPc {s : State} (h : s.status = .running) (hp : s.pc.toNat ≤ 0x0FFE) : ∃ w, WordAtPc s w := by
  refine ⟨joinBytes (s.mem.cell s.pc.toNat) (s.mem.cell (s.pc.toNat + 1)), h, hp, ?_, ?_⟩
  · rw [Memory.read_eq_some (by omega)]; exact congrArg some (hiByte_joinBytes _ _).symm
  · rw [Memory.read_eq_some (by omega)]; exact congrArg some (loByte_joinBytes _ _).symm

/-- Only one word stands at `pc`. -/
theorem wordAtPc_unique {s : State} {w w' : Word} (h : WordAtPc s w) (h' : WordAtPc s w') : w = w' := by
  have h0 : hiByte w = hiByte w' := Option.some.inj (h.byte0.symm.trans h'.byte0)
  have h1 : loByte w = loByte w' := Option.some.inj (h.byte1.symm.trans h'.byte1)
  rw [← joinBytes_hiByte_loByte w, h0, h1, joinBytes_hiByte_loByte]

/-! ### Runs -/

theorem afterTicks_zero (s : State) : afterTicks 0 s = .next s := rfl

/-- One tick, then the rest. -/
theorem afterTicks_succ_of_step {s t : State} (k : Nat) (h : step s = .next t) : afterTicks (k + 1) s = afterTicks k t := by
  have h' : core.step s = .next t := h
  simp only [afterTicks, Host.Core.run, h']
  rfl

end Sys2Proof.Machine
end

