-- ==== Sys2Proof/Tests/Slice0.lean ====
section
/-! SUPPORT. Tests: expected results come from the worked examples and vectors of spec/95_test_vectors.md and from the
rules' own examples, not from the model. After them, for every statement with hypotheses, a witness that meets them. -/

namespace Sys2Proof.Tests

open Sys2Proof.Machine

/-! ### Well-formedness: each row's words are refused as unknown instructions -/

theorem test_wf_refuses_cls_word : Instr.wf (.unknown 0x00E0#16) = false := by decide
theorem test_wf_refuses_cls_alias : Instr.wf (.unknown 0x0FE0#16) = false := by decide
theorem test_wf_refuses_jp_word : Instr.wf (.unknown 0x1234#16) = false := by decide
theorem test_wf_refuses_ldVxByte_word : Instr.wf (.unknown 0x6A2F#16) = false := by decide
theorem test_wf_refuses_addVxByte_word : Instr.wf (.unknown 0x7FFF#16) = false := by decide
theorem test_wf_refuses_ldI_word : Instr.wf (.unknown 0xAFFF#16) = false := by decide
theorem test_wf_refuses_drw_word : Instr.wf (.unknown 0xD12F#16) = false := by decide
theorem test_wf_accepts_unknown_words : Instr.wf (.unknown 0x0000#16) = true ∧ Instr.wf (.unknown 0x00EE#16) = true := by decide

/-! ### Parameters (00_scope R6) -/

theorem test_config_rom_max : Config.romMax = 0xE00 ∧ Config.memSize = 4096 ∧ Config.loadOffset = 512 := by decide

/-! ### Decoding: words written out bit by bit from R96 and R98 -/

/-- V1, `0000 0000 1110 0000`. -/
theorem test_decode_cls : decode [0b00000000#8, 0b11100000#8] = .ok (.cls 0, []) := by decide
/-- V7, X ignored. -/
theorem test_decode_cls_alias : decode [0b00001111#8, 0b11100000#8] = .ok (.cls 15, []) := by decide
/-- V2, `0001 0010 0011 0100`. -/
theorem test_decode_jp : decode [0b00010010#8, 0b00110100#8] = .ok (.jp 0x234#12, []) := by decide
/-- V3, `0110 1010 0010 1111`. -/
theorem test_decode_ldVxByte : decode [0b01101010#8, 0b00101111#8] = .ok (.ldVxByte 10 0x2F#8, []) := by decide
/-- V4. -/
theorem test_decode_addVxByte : decode [0b01111111#8, 0b11111111#8] = .ok (.addVxByte 15 0xFF#8, []) := by decide
/-- V5. -/
theorem test_decode_ldI : decode [0b10101111#8, 0b11111111#8] = .ok (.ldI 0xFFF#12, []) := by decide
/-- V6, `1101 0001 0010 1111`; the rest of the list is given back. -/
theorem test_decode_drw : decode [0b11010001#8, 0b00101111#8, 0x55#8] = .ok (.drw 1 2 0xF#4, [0x55#8]) := by decide
/-- V8. -/
theorem test_decode_00EE : decode [0b00000000#8, 0b11101110#8] = .ok (.unknown 0x00EE#16, []) := by decide
/-- V9. -/
theorem test_decode_0000 : decode [0b00000000#8, 0b00000000#8] = .ok (.unknown 0x0000#16, []) := by decide
/-- P2. -/
theorem test_fields_P2 : decodeFields 0xD1#8 0x2F#8 =
    ⟨0xD#4, 0x1#4, 0x2#4, 0xF#4, 0x2F#8, 0x12F#12⟩ := by decide
theorem test_decode_truncated : decode [0x12#8] = .error .truncated ∧ decode [] = .error .truncated := by decide
/-- The encoding functions of R103 on the words of V1 to V6. -/
theorem test_encode_words :
    encodeWord (.cls 0) = 0x00E0#16 ∧ encodeWord (.jp 0x234#12) = 0x1234#16 ∧
    encodeWord (.ldVxByte 10 0x2F#8) = 0x6A2F#16 ∧ encodeWord (.addVxByte 15 0xFF#8) = 0x7FFF#16 ∧
    encodeWord (.ldI 0xFFF#12) = 0xAFFF#16 ∧ encodeWord (.drw 1 2 0xF#4) = 0xD12F#16 := by decide
theorem test_decodeTableWord : decodeTableWord 16 0x6A2F = some (.ldVxByte 10 0x2F#8) := by decide

/-! ### One step on small states -/

/-- The running state with the word `w` at `pc`, `I = i`, everything else as reset left it. -/
def start (pc w i : Word) : State := ((State.resetWith i).setPc pc).placeWord w

/-- `start` with one more byte of memory. -/
def withByte (s : State) (a : Nat) (b : Byte) : State := { s with mem := s.mem.write a b }

/-- The display whose cells that are on are exactly these. -/
def lit (cs : List (Fin 64 × Fin 32)) : Display := cs.foldl (fun d c => Display.put d c.1 c.2 true) Display.blank

/-- Whether the step from `s` answers a next state that passes `p`. -/
def stepsTo (s : State) (p : State → Bool) : Bool :=
  match step s with
  | .next t    => p t
  | .fault _   => false
  | .refused _ => false

/-- V10. -/
theorem test_cls_clears : stepsTo { (start 0x200#16 0x00E0#16 0x123#16).writeReg 15 1#8 with disp := lit [(0, 0), (5, 3), (63, 31)] }
    (fun t => t.disp == lit [] && t.pc == 0x202#16 && t.readReg 15 == 1#8 && t.events == []) = true := by decide +kernel
/-- V11: an alias of CLS. -/
theorem test_cls_alias_clears : stepsTo { start 0x200#16 0x05E0#16 0#16 with disp := lit [(10, 10)] }
    (fun t => t.disp == lit [] && t.pc == 0x202#16) = true := by decide +kernel
/-- V15 (P5). -/
theorem test_jp : stepsTo (start 0x200#16 0x1234#16 0#16) (fun t => t.pc == 0x234#16) = true := by decide
/-- V16: a self-jump leaves the whole state as it was. -/
theorem test_jp_self : stepsTo (start 0x200#16 0x1200#16 0#16) (fun t => t == start 0x200#16 0x1200#16 0#16) = true := by
  decide +kernel
/-- V21. -/
theorem test_ldVxByte : stepsTo ((start 0x200#16 0x6A2F#16 0#16).writeReg 10 0x99#8)
    (fun t => t.readReg 10 == 0x2F#8 && t.pc == 0x202#16) = true := by decide
/-- V22: `V[15]` is an ordinary destination. -/
theorem test_ldVxByte_flagReg : stepsTo ((start 0x200#16 0x6FFF#16 0#16).writeReg 15 1#8)
    (fun t => t.readReg 15 == 0xFF#8) = true := by decide
/-- V25 (P4). -/
theorem test_addVxByte_wraps : stepsTo ((start 0x200#16 0x730A#16 0#16).writeReg 3 250#8)
    (fun t => t.readReg 3 == 4#8 && t.readReg 15 == 0#8 && t.pc == 0x202#16) = true := by decide
/-- V29. -/
theorem test_addVxByte_flagReg : stepsTo ((start 0x200#16 0x7F01#16 0#16).writeReg 15 0xFF#8)
    (fun t => t.readReg 15 == 0#8) = true := by decide
/-- V36. -/
theorem test_ldI : stepsTo (start 0x200#16 0xAFFF#16 0x0123#16) (fun t => t.i == 0x0FFF#16 && t.pc == 0x202#16) = true := by
  decide
/-- V37: the old `I` does not matter. -/
theorem test_ldI_zero : stepsTo (start 0x200#16 0xA000#16 0xFFFF#16) (fun t => t.i == 0#16) = true := by decide
/-- V46 (P7): bit 7 is leftmost, and the second pixel wraps to column 0. -/
theorem test_drw_wraps : stepsTo (withByte ((start 0x200#16 0xD011#16 0x300#16).writeReg 0 63#8) 0x300 0xC0#8)
    (fun t => t.disp == lit [(63, 0), (0, 0)] && t.readReg 15 == 0#8 && t.pc == 0x202#16 && t.events == [.refresh]) = true := by
  decide +kernel
/-- V42: the flag is set by a cell turned off, and the coordinate of `VF` is read before the clear (V56). -/
theorem test_drw_collides : stepsTo (withByte { (start 0x200#16 0xDF11#16 0x300#16).writeReg 15 63#8 with
      disp := lit [(63, 0)] } 0x300 0xC0#8)
    (fun t => t.disp == lit [(0, 0)] && t.readReg 15 == 1#8) = true := by decide +kernel
/-- V61. -/
theorem test_unknown_skips : stepsTo (start 0x206#16 0x8120#16 0xABC#16)
    (fun t => t == { start 0x206#16 0x8120#16 0xABC#16 with
      pc := 0x208#16, events := [.diag .unknownInstruction 0x8120#16 0x206#16] }) = true := by decide +kernel
/-- V62: the word 0x0000 is no CLS. -/
theorem test_unknown_0000_keeps_display : stepsTo { start 0x200#16 0x0000#16 0#16 with disp := lit [(1, 1)] }
    (fun t => t.disp == lit [(1, 1)] && t.pc == 0x202#16) = true := by decide +kernel

/-! ### Faults (V53, V58, V59, V71 to V74) -/

/-- V71. -/
theorem test_fetch_faults_at_1000 : stepsTo ((State.resetWith 0#16).setPc 0x1000#16)
    (fun t => t.status == .faulted .fetchOutOfRange 0x1000#16 && t.pc == 0x1000#16) = true := by decide
/-- V72. -/
theorem test_fetch_faults_at_0FFF : stepsTo ((State.resetWith 0#16).setPc 0x0FFF#16)
    (fun t => t.status == .faulted .fetchOutOfRange 0x1000#16 && t.pc == 0x0FFF#16) = true := by decide
/-- V74: the last slot executes. -/
theorem test_fetch_at_0FFE : stepsTo (start 0x0FFE#16 0x6A2F#16 0#16)
    (fun t => t.readReg 10 == 0x2F#8 && t.pc == 0x1000#16 && t.status == .running) = true := by decide
/-- V53. -/
theorem test_drw_faults_before_any_change : stepsTo ((start 0x200#16 0xD01F#16 0xFF2#16).writeReg 15 7#8)
    (fun t => t.status == .faulted .spriteReadOutOfRange 0x1000#16 && t.pc == 0x200#16 && t.readReg 15 == 7#8 &&
      t.events == []) = true := by decide
/-- V58: the sprite address does not wrap at 16 bits. -/
theorem test_drw_faults_at_FFFF : stepsTo (start 0x200#16 0xD001#16 0xFFFF#16)
    (fun t => t.status == .faulted .spriteReadOutOfRange 0xFFFF#16) = true := by decide
/-- V59: no row, no fault. -/
theorem test_drw_no_rows : stepsTo (start 0x200#16 0xD000#16 0xFFFF#16)
    (fun t => t.status == .running && t.pc == 0x202#16 && t.readReg 15 == 0#8) = true := by decide
/-- V73. -/
theorem test_faulted_tick : step ((State.resetWith 0#16).raiseFault .fetchOutOfRange 0x1000#16) =
    .next ((State.resetWith 0#16).raiseFault .fetchOutOfRange 0x1000#16) := rfl
/-- The table's word placed after reset is the first instruction run. -/
theorem test_withFetchWord : stepsTo (State.reset.withFetchWord 16 0x6A2F) (fun t => t.readReg 10 == 0x2F#8) = true := by decide

/-! ### Launch image (V80, V82, V83) and ports -/

/-- V83: a ROM of odd length. -/
theorem test_launch_odd_rom : [0x1FF, 0x200, 0x201, 0x202, 0x203].map (State.launch 0#16 [0x60#8, 0x07#8, 0x6F#8]).mem.read =
    [some 0#8, some 0x60#8, some 0x07#8, some 0x6F#8, some 0#8] := by decide
theorem test_load_reports : loadReport none = some .ioError ∧ loadReport (some []) = some .emptyRomError ∧
    loadReport (some [0x00#8]) = none := by decide
theorem test_memory_edges : Memory.read [] 4095 = some 0#8 ∧ Memory.read [] 4096 = none := by decide
theorem test_write_keeps_canonical_form : Memory.write [(3, 7#8)] 3 0#8 = [] ∧
    Memory.write [(3, 7#8)] 2 5#8 = [(2, 5#8), (3, 7#8)] ∧ Memory.write [(3, 7#8)] 4096 5#8 = [(3, 7#8)] := by decide
/-- The codes of 60_exceptions R215. -/
theorem test_codes : Status.running.code = 0 ∧ (Status.faulted .fetchOutOfRange 0x1000#16).code = 1 ∧
    (Status.faulted .spriteReadOutOfRange 0x1000#16).code = 2 ∧ DiagKind.unknownInstruction.code = 3 := by decide

/-! ### Witnesses: states and operands that meet the hypotheses of each statement -/

theorem witness_DecodeOfEncodeIsIdentity : Instr.wf (.unknown 0x8120#16) = true ∧ Instr.wf (.drw 15 15 15#4) = true := by decide
theorem witness_EncodeOfDecodeIsIdentity : decode [0xD1#8, 0x2F#8, 0x00#8] = .ok (.drw 1 2 0xF#4, [0x00#8]) := by decide
theorem witness_DecoderAgreesWithOpcodeMap : Instr.drw 1 2 0xF#4 = decodeBytes (hiByte 0xD12F#16) (loByte 0xD12F#16) := by decide
/-- One word for each clause: class 0 with and without low byte 0xE0, the five other classes, the ten unlisted ones. -/
theorem witness_DecodeByClass :
    (0x0FE0#16).extractLsb' 12 4 = 0x0#4 ∧ (0x0FE0#16).extractLsb' 0 8 = 0xE0#8 ∧
    (0x00E1#16).extractLsb' 12 4 = 0x0#4 ∧ (0x00E1#16).extractLsb' 0 8 ≠ 0xE0#8 ∧
    (0x1FFF#16).extractLsb' 12 4 = 0x1#4 ∧ (0x6FFF#16).extractLsb' 12 4 = 0x6#4 ∧ (0x7000#16).extractLsb' 12 4 = 0x7#4 ∧
    (0xA000#16).extractLsb' 12 4 = 0xA#4 ∧ (0xDFFF#16).extractLsb' 12 4 = 0xD#4 ∧
    (0xF0E0#16).extractLsb' 12 4 ∈ [0x2#4, 0x3#4, 0x4#4, 0x5#4, 0x8#4, 0x9#4, 0xB#4, 0xC#4, 0xE#4, 0xF#4] := by decide
theorem witness_FieldsAreBitsOfWord : (⟨0xD#4, 0x1#4, 0x2#4, 0xF#4, 0x2F#8, 0x12F#12⟩ : Fields) = decodeFields 0xD1#8 0x2F#8 := by
  decide

/-- At the last address an instruction can be fetched from. -/
theorem witness_StepRunsDecodedInstruction :
    (start 0xFFE#16 0xD12F#16 0#16).status = .running ∧ (start 0xFFE#16 0xD12F#16 0#16).pc.toNat ≤ 0x0FFE ∧
    (start 0xFFE#16 0xD12F#16 0#16).mem.read 0xFFE = some 0xD1#8 ∧
    (start 0xFFE#16 0xD12F#16 0#16).mem.read 0xFFF = some 0x2F#8 ∧
    decode [0xD1#8, 0x2F#8] = .ok (.drw 1 2 0xF#4, []) ∧ Instr.wf (.drw 1 2 0xF#4) = true := by decide
theorem witness_PlacedWordIsRun :
    (start 0xFFE#16 0x1234#16 0#16).mem.wf = true ∧ (start 0xFFE#16 0x1234#16 0#16).pc.toNat ≤ 0x0FFE := by decide

/-- One running state whose step stays running and one whose step faults, and a faulted state. -/
theorem witness_StepHasOneOfTwoOutcomes : (start 0x200#16 0x00E0#16 0#16).status = .running ∧
    ((State.resetWith 0#16).setPc 0x1000#16).status = .running ∧
    ((State.resetWith 0#16).raiseFault .fetchOutOfRange 0x1000#16).Faulted := ⟨rfl, rfl, _, _, rfl⟩

theorem at_start_cls : WordAtPc (start 0x200#16 0x05E0#16 0#16) 0x05E0#16 := ⟨rfl, by decide, by decide, by decide⟩
theorem at_start_jp : WordAtPc (start 0x200#16 0x1FFF#16 0#16) 0x1FFF#16 := ⟨rfl, by decide, by decide, by decide⟩
theorem at_start_ld : WordAtPc (start 0x200#16 0x6FFF#16 0#16) 0x6FFF#16 := ⟨rfl, by decide, by decide, by decide⟩
theorem at_start_add : WordAtPc (start 0x201#16 0x7F01#16 0#16) 0x7F01#16 := ⟨rfl, by decide, by decide, by decide⟩
theorem at_start_ldI : WordAtPc (start 0xFFE#16 0xAFFF#16 0xFFFF#16) 0xAFFF#16 := ⟨rfl, by decide, by decide, by decide⟩
theorem at_start_unknown : WordAtPc (start 0xFFE#16 0x00EE#16 0#16) 0x00EE#16 := ⟨rfl, by decide, by decide, by decide⟩
/-- The tallest sprite that fits (V52) and the one row further that does not (V53). -/
theorem at_start_drw_fits : WordAtPc (start 0x200#16 0xDF1F#16 0xFF1#16) 0xDF1F#16 := ⟨rfl, by decide, by decide, by decide⟩
theorem at_start_drw_over : WordAtPc (start 0x200#16 0xDF1F#16 0xFF2#16) 0xDF1F#16 := ⟨rfl, by decide, by decide, by decide⟩
theorem at_start_drw_none : WordAtPc (start 0x200#16 0xDF10#16 0xFFFF#16) 0xDF10#16 := ⟨rfl, by decide, by decide, by decide⟩

/-- A word that is no jump and one that is, each with a running next state. -/
theorem witness_OnlyJpRedirectsPc :
    (WordAtPc (start 0x200#16 0x05E0#16 0#16) 0x05E0#16 ∧ (0x05E0#16).extractLsb' 12 4 ≠ 0x1#4 ∧
      ∃ t, step (start 0x200#16 0x05E0#16 0#16) = .next t ∧ t.status = .running) ∧
    (WordAtPc (start 0x200#16 0x1FFF#16 0#16) 0x1FFF#16 ∧ (0x1FFF#16).extractLsb' 12 4 = 0x1#4 ∧
      ∃ t, step (start 0x200#16 0x1FFF#16 0#16) = .next t ∧ t.status = .running) :=
  ⟨⟨at_start_cls, by decide, _, step_of_wordAtPc at_start_cls, rfl⟩, ⟨at_start_jp, by decide, _, step_of_wordAtPc at_start_jp, rfl⟩⟩

/-- `pc` on both sides of the fetch limit, and `I` on both sides of the sprite limit. -/
theorem witness_FaultsExactlyOutOfRange :
    stepsTo (start 0xFFE#16 0x00EE#16 0#16) (fun t => t.status == .running) = true ∧
    stepsTo ((State.resetWith 0#16).setPc 0xFFF#16) (fun t => t.status == .faulted .fetchOutOfRange 0x1000#16) = true ∧
    stepsTo (start 0x200#16 0xDF1F#16 0xFF1#16) (fun t => t.status == .running) = true ∧
    stepsTo (start 0x200#16 0xDF1F#16 0xFF2#16) (fun t => t.status == .faulted .spriteReadOutOfRange 0x1000#16) = true := by
  decide +kernel

theorem witness_FaultChangesOnlyStatus : ((State.resetWith 0#16).setPc 0x1000#16).status = .running ∧
    ∃ t, step ((State.resetWith 0#16).setPc 0x1000#16) = .next t ∧ t.status = .faulted .fetchOutOfRange 0x1000#16 :=
  ⟨rfl, _, rfl, rfl⟩
theorem witness_FaultedMachineIsFrozen : ((State.resetWith 0#16).raiseFault .spriteReadOutOfRange 0x1000#16).Faulted := ⟨_, _, rfl⟩

theorem witness_ClsClearsDisplay : WordAtPc (start 0x200#16 0x05E0#16 0#16) 0x05E0#16 ∧ 0x05E0#16 &&& 0xF0FF#16 = 0x00E0#16 :=
  ⟨at_start_cls, by decide⟩
/-- The target 0xFFF, which the second clause is about. -/
theorem witness_JpLoadsTarget : WordAtPc (start 0x200#16 0x1FFF#16 0#16) (0x1000#16 ||| (0xFFF#12).setWidth 16) := at_start_jp
theorem witness_LdVxByteAssigns :
    WordAtPc (start 0x200#16 0x6FFF#16 0#16) (0x6000#16 ||| (BitVec.ofNat 16 15 <<< 8) ||| (0xFF#8).setWidth 16) := at_start_ld
theorem witness_AddVxByteWraps :
    WordAtPc (start 0x201#16 0x7F01#16 0#16) (0x7000#16 ||| (BitVec.ofNat 16 15 <<< 8) ||| (0x01#8).setWidth 16) := at_start_add
/-- The address 0xFFF, and a step that changes `I`. -/
theorem witness_LdILoadsAddress : WordAtPc (start 0xFFE#16 0xAFFF#16 0xFFFF#16) (0xA000#16 ||| (0xFFF#12).setWidth 16) ∧
    ∃ t, step (start 0xFFE#16 0xAFFF#16 0xFFFF#16) = .next t ∧ t.i ≠ (start 0xFFE#16 0xAFFF#16 0xFFFF#16).i :=
  ⟨at_start_ldI, _, step_of_wordAtPc at_start_ldI, by decide⟩
/-- Both clauses: an unlisted class (with low byte 0xE0), and class 0 with another low byte. -/
theorem witness_UnknownWordIsSkipped :
    (WordAtPc (start 0xFFE#16 0x00EE#16 0#16) 0x00EE#16 ∧ (0x00EE#16).extractLsb' 12 4 = 0x0#4 ∧ (0x00EE#16).extractLsb' 0 8 ≠ 0xE0#8) ∧
    (WordAtPc (start 0x200#16 0xF0E0#16 0#16) 0xF0E0#16 ∧
      (0xF0E0#16).extractLsb' 12 4 ∈ [0x2#4, 0x3#4, 0x4#4, 0x5#4, 0x8#4, 0x9#4, 0xB#4, 0xC#4, 0xE#4, 0xF#4]) :=
  ⟨⟨at_start_unknown, by decide, by decide⟩, ⟨rfl, by decide, by decide, by decide⟩, by decide⟩

/-- The tallest sprite whose last row is at 0xFFF, with X = 15. -/
theorem witness_DrwXorsSpriteMask :
    WordAtPc (start 0x200#16 0xDF1F#16 0xFF1#16)
      (0xD000#16 ||| (BitVec.ofNat 16 15 <<< 8) ||| (BitVec.ofNat 16 1 <<< 4) ||| (0xF#4).setWidth 16) ∧
    SpriteFits (start 0x200#16 0xDF1F#16 0xFF1#16) 0xF#4 := ⟨at_start_drw_fits, by decide⟩
/-- A cell under the mask and one outside it, each of the two flag clauses among them (on and off before the draw). -/
theorem witness_DrwXorsSpriteMask_clauses :
    SpriteMask (withByte (start 0x200#16 0xD011#16 0x300#16) 0x300 0x80#8) 0 1 1#4 0 0 ∧
    ¬ SpriteMask (withByte (start 0x200#16 0xD011#16 0x300#16) 0x300 0x80#8) 0 1 1#4 1 0 ∧
    Display.get (lit [(0, 0)]) 0 0 = true ∧ Display.get (lit []) 0 0 = false := by decide +kernel
/-- Each clause at its edge: one row too far; no row at all; `I = 0xFF1`. -/
theorem witness_DrwFaultsIffSpriteLeavesMemory :
    (WordAtPc (start 0x200#16 0xDF1F#16 0xFF2#16)
      (0xD000#16 ||| (BitVec.ofNat 16 15 <<< 8) ||| (BitVec.ofNat 16 1 <<< 4) ||| (0xF#4).setWidth 16) ∧
      0 < (0xF#4).toNat ∧ 4095 < (start 0x200#16 0xDF1F#16 0xFF2#16).i.toNat + (0xF#4).toNat - 1) ∧
    (WordAtPc (start 0x200#16 0xDF10#16 0xFFFF#16)
      (0xD000#16 ||| (BitVec.ofNat 16 15 <<< 8) ||| (BitVec.ofNat 16 1 <<< 4) ||| (0x0#4).setWidth 16) ∧
      SpriteFits (start 0x200#16 0xDF10#16 0xFFFF#16) 0x0#4) ∧
    (start 0x200#16 0xDF1F#16 0xFF1#16).i.toNat ≤ 0x0FFF :=
  ⟨⟨at_start_drw_over, by decide, by decide⟩, ⟨at_start_drw_none, by decide⟩, by decide⟩
theorem witness_DrwOfNoRowsClearsFlag :
    WordAtPc (start 0x200#16 0xDF10#16 0xFFFF#16) (0xD000#16 ||| (BitVec.ofNat 16 15 <<< 8) ||| (BitVec.ofNat 16 1 <<< 4)) :=
  at_start_drw_none
/-- The second draw starts from the first one's next state; the sprite has a set bit over a blank display (no collision in
the first draw; the next theorem has one). -/
theorem witness_DrawingTwiceRestoresDisplay :
    let s := withByte (start 0x200#16 0xD011#16 0x300#16) 0x300 0xC0#8
    SpriteFits s 1#4 ∧ ∃ t, exec (.drw 0 1 1#4) s = .next t ∧ t.disp = t.disp ∧ t.v[(0 : Reg)] = s.v[(0 : Reg)] ∧
      t.v[(1 : Reg)] = s.v[(1 : Reg)] ∧ t.i = s.i ∧ t.mem = s.mem := by
  intro s
  have hf : SpriteFits s 1#4 := by decide
  exact ⟨hf, _, execDrw_of_fits hf, rfl, State.drawSprite_readReg s 0 1 _ (by decide),
    State.drawSprite_readReg s 0 1 _ (by decide), State.drawSprite_i _ _ _ _, State.drawSprite_mem _ _ _ _⟩
/-- The hypotheses again over a display that is on under the sprite: the first draw collides. -/
theorem witness_DrawingTwiceRestoresDisplay_collision :
    let s := { withByte (start 0x200#16 0xD011#16 0x300#16) 0x300 0x80#8 with disp := lit [(0, 0)] }
    SpriteFits s 1#4 ∧ (∃ px py, SpriteMask s 0 1 1#4 px py ∧ Display.get s.disp px py = true) ∧
      ∃ t, exec (.drw 0 1 1#4) s = .next t ∧ t.disp = t.disp ∧ t.v[(0 : Reg)] = s.v[(0 : Reg)] ∧
      t.v[(1 : Reg)] = s.v[(1 : Reg)] ∧ t.i = s.i ∧ t.mem = s.mem := by
  intro s
  have hf : SpriteFits s 1#4 := by decide
  exact ⟨hf, ⟨0, 0, by decide +kernel⟩, _, execDrw_of_fits hf, rfl, State.drawSprite_readReg s 0 1 _ (by decide),
    State.drawSprite_readReg s 0 1 _ (by decide), State.drawSprite_i _ _ _ _, State.drawSprite_mem _ _ _ _⟩
/-- Each flag clause: a cell under the sprite that is on (off) before the first draw, and none. -/
theorem witness_DrawingTwiceRestoresDisplay_clauses :
    let blank := withByte (start 0x200#16 0xD011#16 0x300#16) 0x300 0x80#8
    let full := { blank with disp := lit [(0, 0)] }
    (∃ px py, SpriteMask full 0 1 1#4 px py ∧ Display.get full.disp px py = true) ∧
    (¬ ∃ px py, SpriteMask blank 0 1 1#4 px py ∧ Display.get blank.disp px py = true) ∧
    (∃ px py, SpriteMask blank 0 1 1#4 px py ∧ Display.get blank.disp px py = false) ∧
    (¬ ∃ px py, SpriteMask full 0 1 1#4 px py ∧ Display.get full.disp px py = false) := by
  intro blank full
  refine ⟨⟨0, 0, by decide +kernel⟩, by decide +kernel, ⟨0, 0, by decide +kernel⟩, by decide +kernel⟩
/-- Zero memory under a sprite that fits, and under one that does not. -/
theorem witness_BlankSpriteTogglesNothing :
    (∀ r, r < (0xF#4).toNat → (start 0x200#16 0xDF1F#16 0xFF1#16).i.toNat + r ≤ 4095 →
      (start 0x200#16 0xDF1F#16 0xFF1#16).mem.read ((start 0x200#16 0xDF1F#16 0xFF1#16).i.toNat + r) = some 0x00#8) ∧
    SpriteFits (start 0x200#16 0xDF1F#16 0xFF1#16) 0xF#4 ∧
    (∀ r, r < (0xF#4).toNat → (start 0x200#16 0xDF1F#16 0xFF2#16).i.toNat + r ≤ 4095 →
      (start 0x200#16 0xDF1F#16 0xFF2#16).mem.read ((start 0x200#16 0xDF1F#16 0xFF2#16).i.toNat + r) = some 0x00#8) ∧
    ¬ SpriteFits (start 0x200#16 0xDF1F#16 0xFF2#16) 0xF#4 := by decide

theorem witness_DrwCompletesWhenSpriteFits : SpriteFits (start 0x200#16 0xDF1F#16 0xFF1#16) 0xF#4 := by decide
theorem witness_RegisterLoadsFrame :
    (∃ t, exec (.ldVxByte 15 0xFF#8) State.reset = .next t) ∧ ∃ t, exec (.addVxByte 15 0xFF#8) State.reset = .next t :=
  ⟨⟨_, rfl⟩, _, rfl⟩
theorem witness_NonRegisterInstructionsFrame :
    (∃ t, exec (.cls 0xF#4) State.reset = .next t) ∧ (∃ t, exec (.jp 0xFFF#12) State.reset = .next t) ∧
    (∃ t, exec (.ldI 0xFFF#12) State.reset = .next t) ∧ ∃ t, exec (.unknown 0x0000#16) State.reset = .next t :=
  ⟨⟨_, rfl⟩, ⟨_, rfl⟩, ⟨_, rfl⟩, _, rfl⟩
/-- A DRW that draws and one that faults. -/
theorem witness_DrwFrame :
    (∃ t, exec (.drw 15 1 0xF#4) (start 0x200#16 0xDF1F#16 0xFF1#16) = .next t) ∧
    ∃ t, exec (.drw 15 1 0xF#4) (start 0x200#16 0xDF1F#16 0xFF2#16) = .next t :=
  ⟨⟨_, execDrw_of_fits (by decide)⟩, _, execDrw_of_not_fits (x := 15) (y := 1) (by decide)⟩

theorem witness_MemoryAndStackAreConstant : ∃ t, afterTicks 1 (start 0x200#16 0x1FFF#16 0#16) = .next t :=
  ⟨_, afterTicks_succ_of_step 0 (step_of_wordAtPc at_start_jp)⟩
/-- Each clause: a step, a step of class 0xA, and a state with `I = 0xFFF`. -/
theorem witness_IndexRegisterIsTwelveBitsOnceLoaded :
    (∃ t, step (start 0x200#16 0x1FFF#16 0#16) = .next t) ∧
    (WordAtPc (start 0xFFE#16 0xAFFF#16 0xFFFF#16) 0xAFFF#16 ∧ (0xAFFF#16).extractLsb' 12 4 = 0xA#4 ∧
      ∃ t, step (start 0xFFE#16 0xAFFF#16 0xFFFF#16) = .next t) ∧
    ((start 0x200#16 0x1FFF#16 0xFFF#16).i.toNat ≤ 0x0FFF ∧ ∃ t, afterTicks 0 (start 0x200#16 0x1FFF#16 0xFFF#16) = .next t) :=
  ⟨⟨_, step_of_wordAtPc at_start_jp⟩, ⟨at_start_ldI, by decide, _, step_of_wordAtPc at_start_ldI⟩, by decide, _, rfl⟩
/-- LD VF changes `V[15]`; a colliding DRW changes it too (`test_drw_collides`). -/
theorem witness_WritersOfRegisters : WordAtPc (start 0x200#16 0x6FFF#16 0#16) 0x6FFF#16 ∧
    ∃ t, step (start 0x200#16 0x6FFF#16 0#16) = .next t ∧ t.v[(15 : Reg)] ≠ (start 0x200#16 0x6FFF#16 0#16).v[(15 : Reg)] :=
  ⟨at_start_ld, _, step_of_wordAtPc at_start_ld, by decide⟩
/-- CLS turns a cell off. -/
theorem witness_WritersOfDisplay :
    WordAtPc { start 0x200#16 0x05E0#16 0#16 with disp := lit [(63, 31)] } 0x05E0#16 ∧
    stepsTo { start 0x200#16 0x05E0#16 0#16 with disp := lit [(63, 31)] }
      (fun t => Display.get t.disp 63 31 != Display.get (lit [(63, 31)]) 63 31) = true :=
  ⟨⟨rfl, by decide, by decide, by decide⟩, by decide +kernel⟩
/-- A diagnostic, a `Refresh` and no event. -/
theorem witness_EventsOfStep :
    (WordAtPc (start 0xFFE#16 0x00EE#16 0#16) 0x00EE#16 ∧ ∃ t, step (start 0xFFE#16 0x00EE#16 0#16) = .next t) ∧
    (WordAtPc (start 0x200#16 0xDF10#16 0xFFFF#16) 0xDF10#16 ∧ ∃ t, step (start 0x200#16 0xDF10#16 0xFFFF#16) = .next t) ∧
    (WordAtPc (start 0x200#16 0x05E0#16 0#16) 0x05E0#16 ∧ ∃ t, step (start 0x200#16 0x05E0#16 0#16) = .next t) :=
  ⟨⟨at_start_unknown, _, step_of_wordAtPc at_start_unknown⟩,
    ⟨at_start_drw_none, _, (step_of_wordAtPc at_start_drw_none).trans (execDrw_of_fits (.inl rfl))⟩,
    ⟨at_start_cls, _, step_of_wordAtPc at_start_cls⟩⟩
theorem witness_StackAndEventsAreNeverRead : ∃ t, step (start 0xFFE#16 0x00EE#16 0#16) = .next t :=
  ⟨_, step_of_wordAtPc at_start_unknown⟩
/-- The same word with another register file and another display: both steps answer. -/
theorem witness_ControlFlowIgnoresData :
    (∃ t, step (start 0x200#16 0x05E0#16 0#16) = .next t) ∧
    ∃ t', step { start 0x200#16 0x05E0#16 0#16 with v := Vector.replicate 16 0xFF#8, disp := lit [(0, 0)] } = .next t' :=
  ⟨⟨_, step_of_wordAtPc at_start_cls⟩, _, step_of_wordAtPc (w := 0x05E0#16) ⟨rfl, by decide, by decide, by decide⟩⟩
theorem witness_DisplayReachesOnlyTheFlag : ∃ t, step (start 0x200#16 0xDF1F#16 0xFF1#16) = .next t :=
  ⟨_, (step_of_wordAtPc at_start_drw_fits).trans (execDrw_of_fits (by decide))⟩
/-- A DRW without rows, and a word of class 0xA. -/
theorem witness_OnlyDrwWithRowsReadsI :
    (WordAtPc (start 0x200#16 0xDF10#16 0xFFFF#16) 0xDF10#16 ∧
      ¬ ((0xDF10#16).extractLsb' 12 4 = 0xD#4 ∧ (0xDF10#16).extractLsb' 0 4 ≠ 0x0#4) ∧
      ∃ t, step (start 0x200#16 0xDF10#16 0xFFFF#16) = .next t) ∧
    (WordAtPc (start 0xFFE#16 0xAFFF#16 0xFFFF#16) 0xAFFF#16 ∧
      ¬ ((0xAFFF#16).extractLsb' 12 4 = 0xD#4 ∧ (0xAFFF#16).extractLsb' 0 4 ≠ 0x0#4) ∧
      ∃ t, step (start 0xFFE#16 0xAFFF#16 0xFFFF#16) = .next t) :=
  ⟨⟨at_start_drw_none, by decide, _, (step_of_wordAtPc at_start_drw_none).trans (execDrw_of_fits (.inl rfl))⟩,
    ⟨at_start_ldI, by decide, _, step_of_wordAtPc at_start_ldI⟩⟩
/-- Another memory with the same bytes at `pc` and in the sprite, and a different byte just above it. -/
theorem witness_StepReadsOnlyFetchAndSpriteBytes :
    WordAtPc (start 0x200#16 0xD011#16 0x300#16) 0xD011#16 ∧ (∃ t, step (start 0x200#16 0xD011#16 0x300#16) = .next t) ∧
    (∀ a, a = 0x200 ∨ a = 0x201 ∨ ((0xD011#16).extractLsb' 12 4 = 0xD#4 ∧ 0x300 ≤ a ∧ a < 0x300 + ((0xD011#16).extractLsb' 0 4).toNat) →
      (withByte (start 0x200#16 0xD011#16 0x300#16) 0x301 0xFF#8).mem.read a = (start 0x200#16 0xD011#16 0x300#16).mem.read a) := by
  have hw : WordAtPc (start 0x200#16 0xD011#16 0x300#16) 0xD011#16 := ⟨rfl, by decide, by decide, by decide⟩
  refine ⟨hw, ⟨_, (step_of_wordAtPc hw).trans (execDrw_of_fits (by decide))⟩, ?_⟩
  intro a ha
  have hn : ((0xD011#16).extractLsb' 0 4).toNat = 1 := by decide
  have hne : a ≠ 0x301 := by omega
  exact Memory.read_write_of_ne hne

theorem reset_inv : State.reset.Inv Config.iReset :=
  ⟨by decide, fun _ => by decide, .inl rfl, rfl, fun _ h => (by cases h), fun _ h => (by cases h), fun _ _ _ h => (by cases h)⟩
/-- `State.reset` meets the invariant and has a step. -/
theorem witness_StepKeepsInvariant : State.reset.Inv Config.iReset ∧ ∃ t, step State.reset = .next t :=
  ⟨reset_inv, _, step_of_wordAtPc (w := 0x0000#16) ⟨rfl, by decide, by decide, by decide⟩⟩
theorem witness_ResetValues : State.reset = State.resetWith Config.iReset := rfl
/-- A first and a last ROM byte, and the address after it. -/
theorem witness_LaunchImageOfRom : 0x200 ≤ 0x202 ∧ 0x202 < 0x200 + min [0x60#8, 0x07#8, 0x6F#8].length 3584 ∧
    0x203 ≤ 4095 ∧ ¬ (0x200 ≤ 0x203 ∧ 0x203 < 0x200 + min [0x60#8, 0x07#8, 0x6F#8].length 3584) := by decide
theorem witness_LongRomIsTruncated : (List.replicate 3584 0xAB#8).length = 3584 := List.length_replicate
theorem witness_FailedLoadsLeaveZeroMemory : loadReport none = some .ioError ∧ loadReport (some []) = some .emptyRomError := by
  decide
/-- One tick from the last slot of zero memory reaches 0x1000, where the next tick faults. -/
theorem witness_ZeroMemorySlidesToFault : ((State.resetWith 0#16).setPc 0xFFE#16).status = .running ∧
    ((State.resetWith 0#16).setPc 0xFFE#16).pc.toNat + 2 * 1 = 0x1000 ∧
    (∀ a, ((State.resetWith 0#16).setPc 0xFFE#16).pc.toNat ≤ a → a ≤ 4095 →
      ((State.resetWith 0#16).setPc 0xFFE#16).mem.read a = some 0x00#8) :=
  ⟨rfl, by decide, fun a _ h => Memory.read_eq_some (a := a) (by omega)⟩
/-- A parked state exists. -/
theorem witness_ParkedIffSelfJump : (start 0x200#16 0x1200#16 0#16).Parked ∧
    WordAtPc (start 0x200#16 0x1200#16 0#16) (0x1000#16 ||| (start 0x200#16 0x1200#16 0#16).pc) := by
  have hw : WordAtPc (start 0x200#16 0x1200#16 0#16) 0x1200#16 := ⟨rfl, by decide, by decide, by decide⟩
  exact ⟨⟨rfl, step_of_wordAtPc hw⟩, hw⟩

end Sys2Proof.Tests
end

section
/-! PROOFS of the scope statements (spec 00_scope): the decoder read as a function of the whole word, what a meaning
emits, and from these the outcomes and the events of one step. -/

namespace Sys2Proof

/-! ### The decoder on the bytes of a word -/

/-- The fields of R91 as bits of the whole word. -/
def wordFields (w : Word) : Fields where
  cls := w.extractLsb' 12 4
  x   := w.extractLsb' 8 4
  y   := w.extractLsb' 4 4
  n   := w.extractLsb' 0 4
  nn  := w.extractLsb' 0 8
  nnn := w.extractLsb' 0 12

/-- A slice of a slice is a slice. -/
theorem extractLsb'_extractLsb'_eq {k a l b m : Nat} (v : BitVec k) (h : b + m ≤ l) :
    (v.extractLsb' a l).extractLsb' b m = v.extractLsb' (a + b) m := by
  apply BitVec.eq_of_getLsbD_eq
  intro j hj
  have hl : b + j < l := by omega
  simp [hj, hl, Nat.add_assoc]

theorem hiNibble_hiByte (w : Word) : hiNibble (hiByte w) = w.extractLsb' 12 4 :=
  extractLsb'_extractLsb'_eq w (by omega)

theorem loNibble_hiByte (w : Word) : loNibble (hiByte w) = w.extractLsb' 8 4 :=
  extractLsb'_extractLsb'_eq w (by omega)

theorem hiNibble_loByte (w : Word) : hiNibble (loByte w) = w.extractLsb' 4 4 :=
  extractLsb'_extractLsb'_eq w (by omega)

theorem loNibble_loByte (w : Word) : loNibble (loByte w) = w.extractLsb' 0 4 :=
  extractLsb'_extractLsb'_eq w (by omega)

theorem loNibble_hiByte_append_loByte (w : Word) : loNibble (hiByte w) ++ loByte w = w.extractLsb' 0 12 := by
  rw [loNibble_hiByte]
  exact BitVec.extractLsb'_append_extractLsb'_eq_extractLsb' rfl

theorem decodeFields_hiByte_loByte (w : Word) : decodeFields (hiByte w) (loByte w) = wordFields w := by
  simp only [decodeFields, wordFields, Fields.mk.injEq]
  exact ⟨hiNibble_hiByte w, loNibble_hiByte w, hiNibble_loByte w, loNibble_loByte w, rfl,
    loNibble_hiByte_append_loByte w⟩

theorem decodeBytes_hiByte_loByte (w : Word) :
    decodeBytes (hiByte w) (loByte w) = selectInstr (wordFields w) w := by
  rw [decodeBytes, decodeFields_hiByte_loByte, joinBytes_hiByte_loByte]

/-- The sub-opcode test of R99 on the two nibbles is the test of the low byte. -/
theorem loByte_eq_E0_iff (w : Word) :
    w.extractLsb' 0 8 = 0xE0#8 ↔ w.extractLsb' 4 4 = 0xE#4 ∧ w.extractLsb' 0 4 = 0x0#4 := by
  have byte : ∀ b : Byte, b = 0xE0#8 ↔ hiNibble b = 0xE#4 ∧ loNibble b = 0x0#4 := by decide
  rw [← hiNibble_loByte, ← loNibble_loByte]
  exact byte (loByte w)

/-- R101: the unknown words are those of the ten unlisted classes, and those of class 0 whose low byte is not 0xE0. -/
theorem isUnknownWord_iff (w : Word) :
    isUnknownWord w = true ↔
      ¬ (w.extractLsb' 12 4 = 0x0#4 ∧ w.extractLsb' 0 8 = 0xE0#8) ∧ w.extractLsb' 12 4 ≠ 0x1#4 ∧
      w.extractLsb' 12 4 ≠ 0x6#4 ∧ w.extractLsb' 12 4 ≠ 0x7#4 ∧ w.extractLsb' 12 4 ≠ 0xA#4 ∧
      w.extractLsb' 12 4 ≠ 0xD#4 := by
  rw [← and_F0FF_eq_iff]
  simp only [ne_eq, ← and_F000_eq_iff]
  simp [isUnknownWord, opcodeRows, OpcodeRow.selects, rowCls, rowJp, rowLdVxByte, rowAddVxByte, rowLdI, rowDrw]

/-- Every word of 16 bits decodes in one of seven ways: by its class to an instruction whose operands are bits of the
word (R96, R100), or to the unknown instruction that carries it. -/
theorem decodeBytes_cases (w : Word) :
    (w.extractLsb' 12 4 = 0x0#4 ∧ w.extractLsb' 0 8 = 0xE0#8 ∧
      decodeBytes (hiByte w) (loByte w) = .cls (w.extractLsb' 8 4)) ∨
    (w.extractLsb' 12 4 = 0x1#4 ∧ decodeBytes (hiByte w) (loByte w) = .jp (w.extractLsb' 0 12)) ∨
    (w.extractLsb' 12 4 = 0x6#4 ∧
      decodeBytes (hiByte w) (loByte w) = .ldVxByte (w.extractLsb' 8 4).toFin (w.extractLsb' 0 8)) ∨
    (w.extractLsb' 12 4 = 0x7#4 ∧
      decodeBytes (hiByte w) (loByte w) = .addVxByte (w.extractLsb' 8 4).toFin (w.extractLsb' 0 8)) ∨
    (w.extractLsb' 12 4 = 0xA#4 ∧ decodeBytes (hiByte w) (loByte w) = .ldI (w.extractLsb' 0 12)) ∨
    (w.extractLsb' 12 4 = 0xD#4 ∧ decodeBytes (hiByte w) (loByte w) =
      .drw (w.extractLsb' 8 4).toFin (w.extractLsb' 4 4).toFin (w.extractLsb' 0 4)) ∨
    (isUnknownWord w = true ∧ decodeBytes (hiByte w) (loByte w) = .unknown w) := by
  rw [decodeBytes_hiByte_loByte, isUnknownWord_iff, loByte_eq_E0_iff]
  unfold selectInstr wordFields
  dsimp only
  split_ifs with h0 hsub h1 h6 h7 hA hD
  · exact .inl ⟨h0, hsub, rfl⟩
  · exact .inr (.inr (.inr (.inr (.inr (.inr ⟨by simp [h0, hsub], rfl⟩)))))
  · exact .inr (.inl ⟨h1, rfl⟩)
  · exact .inr (.inr (.inl ⟨h6, rfl⟩))
  · exact .inr (.inr (.inr (.inl ⟨h7, rfl⟩)))
  · exact .inr (.inr (.inr (.inr (.inl ⟨hA, rfl⟩))))
  · exact .inr (.inr (.inr (.inr (.inr (.inl ⟨hD, rfl⟩)))))
  · exact .inr (.inr (.inr (.inr (.inr (.inr ⟨by simp [h0, h1, h6, h7, hA, hD], rfl⟩)))))

end Sys2Proof

namespace Sys2Proof.Machine

/-! ### Outcomes of a meaning and of a step (R22) -/

/-- A meaning keeps `status` and adds at most one event, or faults and changes nothing but `status`. -/
theorem exec_outcome (i : Instr) (s : State) : ∃ t, exec i s = .next t ∧
    ((t.status = s.status ∧ (t.events = s.events ∨ ∃ e, t.events = s.events ++ [e])) ∨
     ∃ c a, t = s.raiseFault c a) := by
  cases i with
  | cls | jp | ldVxByte | addVxByte | ldI => exact ⟨_, rfl, .inl ⟨rfl, .inl rfl⟩⟩
  | unknown w => exact ⟨_, rfl, .inl ⟨rfl, .inr ⟨_, rfl⟩⟩⟩
  | drw x y n =>
    by_cases hfit : SpriteFits s n
    · exact ⟨_, execDrw_of_fits hfit, .inl ⟨by simp, .inr ⟨.refresh, by simp⟩⟩⟩
    · exact ⟨_, execDrw_of_not_fits hfit, .inr ⟨_, _, rfl⟩⟩

/-- Settles O10: by what a step can do, a faulted engine answers its own state, an unfetchable `pc` raises the fetch
fault, and otherwise the step is a meaning, whose outcomes are those of `exec_outcome`. -/
theorem stepHasOneOfTwoOutcomes : Obligations.StepHasOneOfTwoOutcomes := by
  constructor
  · intro s hrun
    rcases step_cases s with ⟨⟨c, a, hf⟩, -⟩ | ⟨-, -, hstep⟩ | ⟨-, -, hstep⟩
    · rw [hrun] at hf
      cases hf
    · exact ⟨_, hstep, .inr ⟨_, _, rfl⟩⟩
    · rw [hstep, ← hrun]
      exact exec_outcome (instrAtPc s) s
  · rintro s ⟨c, a, hf⟩
    exact step_of_faulted hf

/-- The step is total: it never ends in the model's own `Fault` or `Refusal`. -/
theorem exists_step_next (s : State) : ∃ t, step s = .next t := by
  obtain ⟨running, faulted⟩ := stepHasOneOfTwoOutcomes
  cases hs : s.status with
  | running =>
    obtain ⟨t, ht, -⟩ := running s hs
    exact ⟨t, ht⟩
  | faulted c a => exact ⟨s, faulted s ⟨c, a, hs⟩⟩

/-- Settles O11, by induction on the number of ticks: the first tick leads to a next state, and the rest run on from it. -/
theorem ticksNeverStop : Obligations.TicksNeverStop := by
  intro k
  induction k with
  | zero => exact fun s => ⟨s, afterTicks_zero s⟩
  | succ k ih =>
    intro s
    obtain ⟨t, ht⟩ := exists_step_next s
    rw [afterTicks_succ_of_step k ht]
    exact ih t

/-! ### Events of a meaning and of a step (R14, R15) -/

/-- What an instruction at address `a` emits when its step ends with the given status: an unknown word its diagnostic, a
DRW that did not fault a `Refresh`. -/
def emitted (a : Word) (after : Status) : Instr → List Event
  | .unknown w => [.diag .unknownInstruction w a]
  | .drw _ _ _ => if after = .running then [.refresh] else []
  | .cls _ | .jp _ | .ldVxByte _ _ | .addVxByte _ _ | .ldI _ => []

/-- A meaning appends exactly what its instruction emits. -/
theorem exec_events {i : Instr} {s t : State} (hrun : s.status = .running) (h : exec i s = .next t) :
    t.events = s.events ++ emitted s.pc t.status i := by
  cases i with
  | cls | jp | ldVxByte | addVxByte | ldI =>
    obtain rfl := Host.Outcome.next.inj h
    simp [emitted]
  | unknown w =>
    obtain rfl := Host.Outcome.next.inj h
    rfl
  | drw x y n =>
    by_cases hfit : SpriteFits s n
    · obtain rfl := Host.Outcome.next.inj ((execDrw_of_fits hfit).symm.trans h)
      simp [emitted, hrun]
    · obtain rfl := Host.Outcome.next.inj ((execDrw_of_not_fits hfit).symm.trans h)
      simp [emitted]

/-- What the instruction of the word `w` emits, in terms of the word. -/
theorem emitted_decodeBytes (a : Word) (after : Status) (w : Word) :
    emitted a after (decodeBytes (hiByte w) (loByte w)) =
      if isUnknownWord w then [.diag .unknownInstruction w a]
      else if w.extractLsb' 12 4 = 0xD#4 ∧ after = .running then [.refresh] else [] := by
  rcases decodeBytes_cases w with ⟨hc, hlow, hd⟩ | ⟨hc, hd⟩ | ⟨hc, hd⟩ | ⟨hc, hd⟩ | ⟨hc, hd⟩ | ⟨hc, hd⟩ | ⟨hu, hd⟩
  · simp [emitted, isUnknownWord_iff, hd, hc, hlow]
  case inr.inr.inr.inr.inr.inr => simp [emitted, hd, hu]
  all_goals simp [emitted, isUnknownWord_iff, hd, hc]

/-- Settles O36: the step on a word is the meaning of the instruction it decodes to, whose events `exec_events` and
`emitted_decodeBytes` give. -/
theorem eventsOfStep : Obligations.EventsOfStep := by
  intro s t w hw hstep
  rw [step_of_wordAtPc hw] at hstep
  rw [exec_events hw.running hstep, emitted_decodeBytes]

end Sys2Proof.Machine
end

section
/-! PROOFS of the state statements (spec 10_state): what one step on the word at `pc` leaves, which elements of the state
a step does not read, and from these the invariant, the writers of each element and the non-interference statements. -/

namespace Sys2Proof.Machine

/-! ### States field by field -/

@[ext] theorem State.ext {s t : State} (v : s.v = t.v) (pc : s.pc = t.pc) (i : s.i = t.i) (stack : s.stack = t.stack)
    (disp : s.disp = t.disp) (mem : s.mem = t.mem) (status : s.status = t.status) (events : s.events = t.events) :
    s = t := by
  cases s
  cases t
  simp_all

/-! ### Arithmetic of `pc` and `I` -/

/-- An address that an instruction can be fetched from does not wrap when `pc` advances (R34). -/
theorem toNat_add_two {a : Word} (h : a.toNat ≤ 0x0FFE) : (a + 2#16).toNat = a.toNat + 2 := by
  rw [BitVec.toNat_add, BitVec.toNat_ofNat]
  omega

@[simp] theorem addrOperand_toNat (a : Addr) : (addrOperand a).toNat = a.toNat :=
  BitVec.toNat_setWidth_of_le (by decide)

theorem addrOperand_toNat_le (a : Addr) : (addrOperand a).toNat ≤ 0x0FFF := by
  rw [addrOperand_toNat]
  exact Nat.le_of_lt_succ a.isLt

/-! ### What a step on a word leaves -/

/-- `StepOnWord s w t`: the word `w`, executed at the state `s`, leads to `t`. One constructor per arm of R123, with the
bits of `w` that select it; DRW has two, as its sprite fits or not (R181). -/
inductive StepOnWord (s : State) (w : Word) : State → Prop
  | cls (hcls : w.extractLsb' 12 4 = 0x0#4) (hlow : w.extractLsb' 0 8 = 0xE0#8) :
      StepOnWord s w s.advance.clearDisplay
  | jp (hcls : w.extractLsb' 12 4 = 0x1#4) :
      StepOnWord s w (s.advance.setPc (addrOperand (w.extractLsb' 0 12)))
  | ldVxByte (hcls : w.extractLsb' 12 4 = 0x6#4) :
      StepOnWord s w (s.advance.writeReg (w.extractLsb' 8 4).toFin (w.extractLsb' 0 8))
  | addVxByte (hcls : w.extractLsb' 12 4 = 0x7#4) :
      StepOnWord s w (s.advance.writeReg (w.extractLsb' 8 4).toFin
        (s.readReg (w.extractLsb' 8 4).toFin + w.extractLsb' 0 8))
  | ldI (hcls : w.extractLsb' 12 4 = 0xA#4) :
      StepOnWord s w (s.advance.setI (addrOperand (w.extractLsb' 0 12)))
  | drw (hcls : w.extractLsb' 12 4 = 0xD#4) (hfits : SpriteFits s (w.extractLsb' 0 4)) :
      StepOnWord s w (s.drawSprite (w.extractLsb' 8 4).toFin (w.extractLsb' 4 4).toFin
        (spriteRows s (w.extractLsb' 0 4)))
  | drwFault (hcls : w.extractLsb' 12 4 = 0xD#4) (hfits : ¬ SpriteFits s (w.extractLsb' 0 4)) :
      StepOnWord s w (s.raiseFault .spriteReadOutOfRange (faultAddr s.i))
  | unknown (hunknown : isUnknownWord w = true) :
      StepOnWord s w (s.advance.emit (.diag .unknownInstruction w s.pc))

/-- Every step with the word `w` at `pc` is one of the arms of `StepOnWord`. -/
theorem stepOnWord_of_step {s t : State} {w : Word} (hw : WordAtPc s w) (h : step s = .next t) : StepOnWord s w t := by
  rw [step_of_wordAtPc hw] at h
  rcases decodeBytes_cases w with
    ⟨hcls, hlow, hd⟩ | ⟨hcls, hd⟩ | ⟨hcls, hd⟩ | ⟨hcls, hd⟩ | ⟨hcls, hd⟩ | ⟨hcls, hd⟩ | ⟨hunknown, hd⟩ <;> rw [hd] at h
  case inr.inr.inr.inr.inr.inl =>
    by_cases hfits : SpriteFits s (w.extractLsb' 0 4)
    · obtain rfl := Host.Outcome.next.inj ((execDrw_of_fits hfits).symm.trans h)
      exact .drw hcls hfits
    · obtain rfl := Host.Outcome.next.inj ((execDrw_of_not_fits hfits).symm.trans h)
      exact .drwFault hcls hfits
  all_goals obtain rfl := Host.Outcome.next.inj h
  · exact .cls hcls hlow
  · exact .jp hcls
  · exact .ldVxByte hcls
  · exact .addVxByte hcls
  · exact .ldI hcls
  · exact .unknown hunknown

section StepOnWord

variable {s t : State} {w : Word}

theorem StepOnWord.mem_eq (h : StepOnWord s w t) : t.mem = s.mem := by
  cases h <;> simp

theorem StepOnWord.stack_eq (h : StepOnWord s w t) : t.stack = s.stack := by
  cases h <;> simp

/-- A step on a word completes, with `status` as it was, or raises the sprite fault for a sprite that does not fit. -/
theorem StepOnWord.status_cases (h : StepOnWord s w t) : t.status = s.status ∨
    ((∃ n, ¬ SpriteFits s n) ∧ t = s.raiseFault .spriteReadOutOfRange (faultAddr s.i)) := by
  cases h with
  | drwFault _ hfits => exact .inr ⟨⟨_, hfits⟩, rfl⟩
  | cls | jp | ldVxByte | addVxByte | ldI | drw | unknown => exact .inl (by simp)

/-- A step that completes leaves `pc` two higher, unless the word is a jump, whose target it leaves. -/
theorem StepOnWord.pc_eq (h : StepOnWord s w t) (hrun : t.status = .running) :
    t.pc = if w.extractLsb' 12 4 = 0x1#4 then addrOperand (w.extractLsb' 0 12) else s.pc + 2#16 := by
  cases h with
  | drwFault => cases hrun
  | unknown hunknown =>
    obtain ⟨-, hnojp, -⟩ := (isUnknownWord_iff w).mp hunknown
    simp [hnojp]
  | cls hcls | jp hcls | ldVxByte hcls | addVxByte hcls | ldI hcls | drw hcls => simp [hcls]

/-- Only a word of class 0xA changes `I`, and it loads a 12-bit address. -/
theorem StepOnWord.i_cases (h : StepOnWord s w t) :
    (w.extractLsb' 12 4 ≠ 0xA#4 ∧ t.i = s.i) ∨ (w.extractLsb' 12 4 = 0xA#4 ∧ t.i.toNat ≤ 0x0FFF) := by
  cases h with
  | ldI hcls => exact .inr ⟨hcls, addrOperand_toNat_le _⟩
  | unknown hunknown =>
    obtain ⟨-, -, -, -, hnoldI, -⟩ := (isUnknownWord_iff w).mp hunknown
    exact .inl ⟨hnoldI, rfl⟩
  | cls hcls | jp hcls | ldVxByte hcls | addVxByte hcls | drw hcls | drwFault hcls => exact .inl (by simp [hcls])

/-- A diagnostic present after a step was there before it, or is about the step's own unknown word. -/
theorem StepOnWord.diag_mem (h : StepOnWord s w t) {k : DiagKind} {u a : Word} (hd : Event.diag k u a ∈ t.events) :
    Event.diag k u a ∈ s.events ∨ (u = w ∧ a = s.pc ∧ isUnknownWord w = true) := by
  cases h with
  | unknown hunknown => simpa [hunknown] using hd
  | cls | jp | ldVxByte | addVxByte | ldI | drw | drwFault => exact .inl (by simpa using hd)

end StepOnWord

/-! ### The invariant -/

section Inv

variable {s t : State} {w r : Word}

theorem State.Inv.raiseFault_fetch (h : s.Inv r) (hpc : 0x0FFE < s.pc.toNat) :
    (s.raiseFault .fetchOutOfRange (faultAddr s.pc)).Inv r where
  memWf := h.memWf
  pcRange hrun := by cases hrun
  iRange := h.iRange
  stackZero := h.stackZero
  fetchFault a ha := by
    cases ha
    exact ⟨hpc, faultAddr_toNat s.pc⟩
  spriteFault a ha := by cases ha
  diagsUnknown := h.diagsUnknown

/-- A sprite has at most 15 rows, so one that does not fit starts at 0xFF2 or above. -/
theorem le_i_of_not_spriteFits {n : Nibble} (h : ¬ SpriteFits s n) : 0x0FF2 ≤ s.i.toNat := by
  have hn := n.isLt
  unfold SpriteFits at h
  omega

theorem State.Inv.raiseFault_sprite (h : s.Inv r) (hpc : s.pc.toNat ≤ 0x0FFE) (hi : 0x0FF2 ≤ s.i.toNat) :
    (s.raiseFault .spriteReadOutOfRange (faultAddr s.i)).Inv r where
  memWf := h.memWf
  pcRange hrun := by cases hrun
  iRange := h.iRange
  stackZero := h.stackZero
  fetchFault a ha := by cases ha
  spriteFault a ha := by
    cases ha
    exact ⟨hpc, hi, faultAddr_toNat s.i⟩
  diagsUnknown := h.diagsUnknown

/-- A step on a word after which the engine still runs keeps the invariant. -/
theorem State.Inv.of_completed (h : s.Inv r) (hw : WordAtPc s w) (hstep : StepOnWord s w t)
    (hrun : t.status = .running) : t.Inv r where
  memWf := hstep.mem_eq ▸ h.memWf
  pcRange _ := by
    have hin := hw.inRange
    rw [hstep.pc_eq hrun]
    split
    · exact Nat.le_succ_of_le (addrOperand_toNat_le _)
    · rw [toNat_add_two hin]
      omega
  iRange := by
    rcases hstep.i_cases with ⟨-, hi⟩ | ⟨-, hi⟩
    · exact hi ▸ h.iRange
    · exact .inr hi
  stackZero := hstep.stack_eq.trans h.stackZero
  fetchFault a ha := by cases hrun.symm.trans ha
  spriteFault a ha := by cases hrun.symm.trans ha
  diagsUnknown k u a hd := by
    rcases hstep.diag_mem hd with hold | ⟨rfl, rfl, hunknown⟩
    · exact h.diagsUnknown k u a hold
    · exact ⟨hunknown, hw.inRange⟩

/-- Settles O42, by what a step can do: a tick on a faulted engine keeps the state, each of the two faults records what
the invariant asks for, and a step that completes keeps every clause by what `StepOnWord` leaves. -/
theorem stepKeepsInvariant : Obligations.StepKeepsInvariant := by
  intro r s t hinv h
  rcases step_cases s with ⟨-, hstep⟩ | ⟨-, hpc, hstep⟩ | ⟨hrun, hpc, -⟩
  · obtain rfl := Host.Outcome.next.inj (hstep.symm.trans h)
    exact hinv
  · obtain rfl := Host.Outcome.next.inj (hstep.symm.trans h)
    exact hinv.raiseFault_fetch hpc
  · obtain ⟨w, hw⟩ := exists_wordAtPc hrun hpc
    have hword := stepOnWord_of_step hw h
    rcases hword.status_cases with hstatus | ⟨⟨n, hfits⟩, rfl⟩
    · exact hinv.of_completed hw hword (hstatus.trans hrun)
    · exact hinv.raiseFault_sprite hpc (le_i_of_not_spriteFits hfits)

theorem State.resetWith_inv (r : Word) : (State.resetWith r).Inv r where
  memWf := rfl
  pcRange _ := (by decide : (0x0200#16).toNat ≤ 0x1000)
  iRange := .inl rfl
  stackZero := rfl
  fetchFault a ha := by cases ha
  spriteFault a ha := by cases ha
  diagsUnknown k w a hd := by cases hd

/-- Settles O43; `State.reset` is the reset state for the value of notes/assumptions/1.md. -/
theorem resetHasInvariant : Obligations.ResetHasInvariant :=
  ⟨State.resetWith_inv, Config.iReset, State.resetWith_inv Config.iReset⟩

end Inv

/-! ### Who writes `pc`, `I`, the registers and the display -/

/-- Settles O12: the `pc` that a completed step leaves, in natural numbers. -/
theorem onlyJpRedirectsPc : Obligations.OnlyJpRedirectsPc := by
  intro s t w hw h hrun
  have hpc := (stepOnWord_of_step hw h).pc_eq hrun
  constructor
  · intro hcls
    rw [hpc, if_neg hcls, toNat_add_two hw.inRange]
  · intro hcls
    rw [hpc, if_pos hcls, addrOperand_toNat]

/-- What every step keeps holds after any number of ticks. -/
theorem afterTicks_of_step_keeps {P : State → Prop} (hkeeps : ∀ s t, P s → step s = .next t → P t) (k : Nat)
    (s t : State) (hs : P s) (h : afterTicks k s = .next t) : P t := by
  induction k generalizing s with
  | zero =>
    obtain rfl := Host.Outcome.next.inj h
    exact hs
  | succ k ih =>
    obtain ⟨u, hu⟩ := exists_step_next s
    rw [afterTicks_succ_of_step k hu] at h
    exact ih u (hkeeps s u hs hu) h

/-- A step keeps `I`, or executes a word of class 0xA and leaves a 12-bit address. -/
theorem step_i_cases {s t : State} (h : step s = .next t) :
    t.i = s.i ∨ ∃ w, WordAtPc s w ∧ w.extractLsb' 12 4 = 0xA#4 ∧ t.i.toNat ≤ 0x0FFF := by
  rcases step_cases s with ⟨-, hstep⟩ | ⟨-, -, hstep⟩ | ⟨hrun, hpc, -⟩
  · obtain rfl := Host.Outcome.next.inj (hstep.symm.trans h)
    exact .inl rfl
  · obtain rfl := Host.Outcome.next.inj (hstep.symm.trans h)
    exact .inl rfl
  · obtain ⟨w, hw⟩ := exists_wordAtPc hrun hpc
    rcases (stepOnWord_of_step hw h).i_cases with ⟨-, hi⟩ | ⟨hcls, hi⟩
    · exact .inl hi
    · exact .inr ⟨w, hw, hcls, hi⟩

/-- Settles O33: `step_i_cases` gives the writer of `I` and its bound, and the bound is kept along a run. -/
theorem indexRegisterIsTwelveBitsOnceLoaded : Obligations.IndexRegisterIsTwelveBitsOnceLoaded := by
  refine ⟨fun s t h => ?_, fun s t w hw hcls h => ?_, afterTicks_of_step_keeps fun s t hs h => ?_⟩
  · rcases step_i_cases h with hi | ⟨w, hw, hcls, -⟩
    · exact .inl hi
    · exact .inr ⟨w, hw, hcls⟩
  · rcases (stepOnWord_of_step hw h).i_cases with ⟨hne, -⟩ | ⟨-, hi⟩
    · exact absurd hcls hne
    · exact hi
  · rcases step_i_cases h with hi | ⟨-, -, -, hi⟩
    · exact hi ▸ hs
    · exact hi

/-- A write that changes `V[r]` is a write to `V[r]`. -/
theorem State.eq_of_readReg_writeReg_ne {s : State} {x r : Reg} {b : Byte}
    (h : (s.writeReg x b).readReg r ≠ s.readReg r) : r = x :=
  not_imp_comm.mp (State.readReg_writeReg_of_ne s b) h

/-- Settles O34, arm by arm of `StepOnWord`: the three arms that write a register write only their own. -/
theorem writersOfRegisters : Obligations.WritersOfRegisters := by
  intro s t w r hw h hne
  cases stepOnWord_of_step hw h with
  | cls | jp | ldI | drwFault | unknown => exact absurd rfl hne
  | ldVxByte hcls =>
    obtain rfl : r = _ := State.eq_of_readReg_writeReg_ne (s := s.advance) hne
    exact .inl ⟨.inl hcls, rfl⟩
  | addVxByte hcls =>
    obtain rfl : r = _ := State.eq_of_readReg_writeReg_ne (s := s.advance) hne
    exact .inl ⟨.inr hcls, rfl⟩
  | drw hcls =>
    have hr : r = flagReg := not_imp_comm.mp (State.drawSprite_readReg s _ _ _) hne
    exact .inr ⟨hcls, hr⟩

/-- Settles O35, arm by arm of `StepOnWord`: CLS leaves every cell off, and a cell that DRW changes is turned
over, a cell being one bit. -/
theorem writersOfDisplay : Obligations.WritersOfDisplay := by
  intro s t w x y hw h hne
  cases stepOnWord_of_step hw h with
  | jp | ldVxByte | addVxByte | ldI | drwFault | unknown => exact absurd rfl hne
  | cls hcls hlow => exact .inl ⟨(and_F0FF_eq_iff w).mpr ⟨hcls, hlow⟩, Display.get_blank x y⟩
  | drw hcls => exact .inr ⟨hcls, Bool.eq_not_of_ne hne⟩

/-! ### What a drawn sprite reads and leaves -/

section Draw

variable {s s' : State}

/-- Plotting reads no more than the registers and the display, for what it does to them. -/
theorem State.plot_v_disp_congr (hv : s'.v = s.v) (hd : s'.disp = s.disp) (c : Fin 64 × Fin 32) :
    (s'.plot c).v = (s.plot c).v ∧ (s'.plot c).disp = (s.plot c).disp := by
  have hcell : Display.get s'.disp c.1 c.2 = Display.get s.disp c.1 c.2 := by rw [hd]
  rcases s.noteCollision_cases c.1 c.2 with ⟨hon, h⟩ | ⟨hoff, h⟩
  · have h' : s'.noteCollision c.1 c.2 = s'.setCollision := if_pos (hcell.trans hon)
    simp [State.plot, h, h', hv, hd]
  · have h' : s'.noteCollision c.1 c.2 = s' := if_neg (by simp [hcell, hoff])
    simp [State.plot, h, h', hv, hd]

theorem State.plotAll_v_disp_congr (hv : s'.v = s.v) (hd : s'.disp = s.disp) (cs : List (Fin 64 × Fin 32)) :
    (s'.plotAll cs).v = (s.plotAll cs).v ∧ (s'.plotAll cs).disp = (s.plotAll cs).disp := by
  induction cs generalizing s s' with
  | nil => exact ⟨hv, hd⟩
  | cons c cs ih =>
    obtain ⟨hv', hd'⟩ := State.plot_v_disp_congr hv hd c
    exact ih hv' hd'

/-- The registers and the display that a drawn sprite leaves come from the registers, the display and the rows alone. -/
theorem State.drawSprite_v_disp_congr (hv : s'.v = s.v) (hd : s'.disp = s.disp) (x y : Reg) (rows : List Byte) :
    (s'.drawSprite x y rows).v = (s.drawSprite x y rows).v ∧
    (s'.drawSprite x y rows).disp = (s.drawSprite x y rows).disp := by
  have hx : ∀ r, s'.readReg r = s.readReg r := fun r => by simp only [State.readReg, hv]
  have hv0 : s'.advance.clearCollision.v = s.advance.clearCollision.v := by simp [hv]
  simp only [State.drawSprite, State.emit_v, State.emit_disp, hx]
  exact State.plotAll_v_disp_congr hv0 hd _

variable (s) (x y : Reg) (rows : List Byte)

theorem State.drawSprite_with_stack_events (stack : Vector Word 16) (events : List Event) :
    State.drawSprite { s with stack := stack, events := events } x y rows =
      { s.drawSprite x y rows with stack := stack, events := events ++ [.refresh] } := by
  obtain ⟨hv, hd⟩ := State.drawSprite_v_disp_congr (s := s) (s' := { s with stack := stack, events := events })
    rfl rfl x y rows
  ext1 <;> simp [hv, hd]

theorem State.drawSprite_with_i (j : Word) :
    State.drawSprite { s with i := j } x y rows = { s.drawSprite x y rows with i := j } := by
  obtain ⟨hv, hd⟩ := State.drawSprite_v_disp_congr (s := s) (s' := { s with i := j }) rfl rfl x y rows
  ext1 <;> simp [hv, hd]

end Draw

/-! ### What a step does not read -/

/-- Two states with the same `status`, `pc` and memory take the same kind of step: both stay as they are, both raise the
fetch fault, or both execute one instruction. -/
theorem step_cases_of_same_fetch {s s' : State} (hstatus : s'.status = s.status) (hpc : s'.pc = s.pc)
    (hmem : s'.mem = s.mem) :
    (step s = .next s ∧ step s' = .next s') ∨
    (∃ a, step s = .next (s.raiseFault .fetchOutOfRange a) ∧ step s' = .next (s'.raiseFault .fetchOutOfRange a)) ∨
    ∃ i, step s = exec i s ∧ step s' = exec i s' := by
  rcases step_cases s with ⟨⟨c, a, hf⟩, hstep⟩ | ⟨hrun, hgt, hstep⟩ | ⟨hrun, hle, hstep⟩
  · exact .inl ⟨hstep, step_of_faulted (hstatus.trans hf)⟩
  · refine .inr (.inl ⟨_, hstep, ?_⟩)
    rw [step_of_running (hstatus.trans hrun), fetchThen_of_gt _ (hpc ▸ hgt), hpc]
  · refine .inr (.inr ⟨_, hstep, ?_⟩)
    rw [step_of_running (hstatus.trans hrun), fetchThen_of_le _ (hpc ▸ hle), hpc, hmem]
    rfl

/-- Any two states with the same `I` and memory draw the same rows, or both fault. -/
theorem execDrw_cases_of_same_rows {s s' : State} (hi : s'.i = s.i) (hmem : s'.mem = s.mem) (x y : Reg) (n : Nibble) :
    (∃ rows, execDrw x y n s = .next (s.drawSprite x y rows) ∧ execDrw x y n s' = .next (s'.drawSprite x y rows)) ∨
    (∃ a, execDrw x y n s = .next (s.raiseFault .spriteReadOutOfRange a) ∧
      execDrw x y n s' = .next (s'.raiseFault .spriteReadOutOfRange a)) := by
  by_cases hfits : SpriteFits s n
  · have hfits' : SpriteFits s' n := by rwa [SpriteFits, hi]
    have hrows : spriteRows s' n = spriteRows s n := by rw [spriteRows, hi, hmem, spriteRows]
    exact .inl ⟨_, execDrw_of_fits hfits, hrows ▸ execDrw_of_fits hfits'⟩
  · have hfits' : ¬ SpriteFits s' n := by rwa [SpriteFits, hi]
    exact .inr ⟨_, execDrw_of_not_fits hfits, hi ▸ execDrw_of_not_fits hfits'⟩

/-- A meaning does not read the stack or the events: it does the same to the rest, and adds the same events. -/
theorem exec_with_stack_events {i : Instr} {s t : State} (stack : Vector Word 16) (events : List Event)
    (h : exec i s = .next t) : ∃ new, t.events = s.events ++ new ∧
      exec i { s with stack := stack, events := events } =
        .next { t with stack := stack, events := events ++ new } := by
  cases i with
  | cls | jp | ldVxByte | addVxByte | ldI =>
    obtain rfl := Host.Outcome.next.inj h
    exact ⟨[], by simp, by rw [List.append_nil]; rfl⟩
  | unknown w =>
    obtain rfl := Host.Outcome.next.inj h
    exact ⟨_, rfl, rfl⟩
  | drw x y n =>
    rcases execDrw_cases_of_same_rows (s := s) (s' := { s with stack := stack, events := events }) rfl rfl x y n with
      ⟨rows, hs, hs'⟩ | ⟨a, hs, hs'⟩ <;> obtain rfl := Host.Outcome.next.inj (hs.symm.trans h)
    · exact ⟨[.refresh], by simp, hs'.trans (congrArg _ (State.drawSprite_with_stack_events s x y rows stack events))⟩
    · exact ⟨[], by simp, by rw [List.append_nil]; exact hs'⟩

/-- Settles O37: a tick that executes nothing adds no event, and a meaning reads neither element. -/
theorem stackAndEventsAreNeverRead : Obligations.StackAndEventsAreNeverRead := by
  intro s t stack events h
  rcases step_cases_of_same_fetch (s := s) (s' := { s with stack := stack, events := events }) rfl rfl rfl with
    ⟨hs, hs'⟩ | ⟨a, hs, hs'⟩ | ⟨i, hs, hs'⟩
  · obtain rfl := Host.Outcome.next.inj (hs.symm.trans h)
    exact ⟨[], by simp, by rw [List.append_nil]; exact hs'⟩
  · obtain rfl := Host.Outcome.next.inj (hs.symm.trans h)
    exact ⟨[], by simp, by rw [List.append_nil]; exact hs'⟩
  · rw [hs']
    exact exec_with_stack_events stack events (hs.symm.trans h)

/-- With another display, a meaning leaves the same state but for the display and `V[15]`. -/
theorem exec_with_disp {i : Instr} {s t : State} (d : Display) (h : exec i s = .next t) :
    ∃ t', exec i { s with disp := d } = .next t' ∧ (∀ r : Reg, r ≠ 15 → t'.v[r] = t.v[r]) ∧
      t' = { t with v := t'.v, disp := t'.disp } := by
  cases i with
  | cls | jp | ldVxByte | addVxByte | ldI | unknown =>
    obtain rfl := Host.Outcome.next.inj h
    exact ⟨_, rfl, fun _ _ => rfl, rfl⟩
  | drw x y n =>
    rcases execDrw_cases_of_same_rows (s := s) (s' := { s with disp := d }) rfl rfl x y n with
      ⟨rows, hs, hs'⟩ | ⟨a, hs, hs'⟩ <;> obtain rfl := Host.Outcome.next.inj (hs.symm.trans h)
    · refine ⟨_, hs', fun r hr => ?_, by ext1 <;> simp⟩
      exact (State.drawSprite_readReg _ x y rows hr).trans (State.drawSprite_readReg s x y rows hr).symm
    · exact ⟨_, hs', fun _ _ => rfl, rfl⟩

/-- Settles O39: a tick that executes nothing keeps the display it finds, and a meaning reads it for DRW's flag only. -/
theorem displayReachesOnlyTheFlag : Obligations.DisplayReachesOnlyTheFlag := by
  intro s t d h
  rcases step_cases_of_same_fetch (s := s) (s' := { s with disp := d }) rfl rfl rfl with
    ⟨hs, hs'⟩ | ⟨a, hs, hs'⟩ | ⟨i, hs, hs'⟩
  · obtain rfl := Host.Outcome.next.inj (hs.symm.trans h)
    exact ⟨_, hs', fun _ _ => rfl, rfl⟩
  · obtain rfl := Host.Outcome.next.inj (hs.symm.trans h)
    exact ⟨_, hs', fun _ _ => rfl, rfl⟩
  · rw [hs']
    exact exec_with_disp d (hs.symm.trans h)

/-- A DRW with no rows draws the empty sprite, whatever `I` holds (R186). -/
theorem execDrw_zero (x y : Reg) (s : State) : execDrw x y 0x0#4 s = .next (s.drawSprite x y []) :=
  execDrw_of_fits (.inl rfl)

/-- Settles O40: another `I` leaves the same word at `pc`, and no instruction it can decode to reads `I`. -/
theorem onlyDrwWithRowsReadsI : Obligations.OnlyDrwWithRowsReadsI := by
  intro s t w j hw hnodrw h
  have hw' : WordAtPc { s with i := j } w := ⟨hw.running, hw.inRange, hw.byte0, hw.byte1⟩
  rw [step_of_wordAtPc hw] at h
  rw [step_of_wordAtPc hw']
  rcases decodeBytes_cases w with
    ⟨hcls, -, hd⟩ | ⟨hcls, hd⟩ | ⟨hcls, hd⟩ | ⟨hcls, hd⟩ | ⟨hcls, hd⟩ | ⟨hcls, hd⟩ | ⟨hunknown, hd⟩ <;>
    rw [hd] at h ⊢
  case inr.inr.inr.inr.inr.inl =>
    have hn : w.extractLsb' 0 4 = 0x0#4 := by_contra fun hn => hnodrw ⟨hcls, hn⟩
    rw [hn] at h ⊢
    obtain rfl := Host.Outcome.next.inj ((execDrw_zero _ _ s).symm.trans h)
    rw [hcls]
    exact (execDrw_zero _ _ _).trans (congrArg _ (State.drawSprite_with_i s _ _ [] j))
  case inr.inr.inr.inr.inr.inr =>
    obtain ⟨-, -, -, -, hnoldI, -⟩ := (isUnknownWord_iff w).mp hunknown
    obtain rfl := Host.Outcome.next.inj h
    rw [if_neg hnoldI]
    rfl
  all_goals
    obtain rfl := Host.Outcome.next.inj h
    rw [hcls]
    rfl

end Sys2Proof.Machine
end

section
/-! PROOFS of the memory statements (spec 20_memory): a word placed at `pc`, what a run leaves of memory, what a step reads
of it, and the launch image. -/

namespace Sys2Proof.Machine

/-! ### A word placed at `pc` (R62) -/

/-- The placed word stands at `pc`, on canonical memory and with both its addresses inside memory (R121). -/
theorem wordAtPc_placeWord {s : State} (hwf : s.mem.wf = true) (hpc : s.pc.toNat ≤ 0x0FFE) (w : Word) :
    WordAtPc (s.placeWord w) w where
  running := rfl
  inRange := hpc
  byte0 := by
    rw [State.placeWord_mem, State.placeWord_pc, Memory.read_write_of_ne (by omega)]
    exact Memory.read_write_self hwf (by omega)
  byte1 := Memory.read_write_self (Memory.write_wf hwf) (by omega)

theorem read_placeWord_of_ne (s : State) (w : Word) {a : Nat} (h0 : a ≠ s.pc.toNat) (h1 : a ≠ s.pc.toNat + 1) :
    (s.placeWord w).mem.read a = s.mem.read a := by
  rw [State.placeWord_mem, Memory.read_write_of_ne h1, Memory.read_write_of_ne h0]

/-- Settles O9: the step on the placed word is the meaning of the instruction its two bytes decode to. -/
theorem placedWordIsRun : Obligations.PlacedWordIsRun := by
  intro s nbits w hwf hpc
  have hw := wordAtPc_placeWord hwf hpc (tableWord nbits w)
  exact ⟨hw, fun a => read_placeWord_of_ne s _, _, rfl, step_of_wordAtPc hw⟩

/-! ### Memory and the stack along a run (R66, R40) -/

theorem step_mem_stack_eq {s t : State} (h : step s = .next t) : t.mem = s.mem ∧ t.stack = s.stack := by
  rcases step_cases s with ⟨-, hstep⟩ | ⟨-, -, hstep⟩ | ⟨hrun, hpc, -⟩
  · obtain rfl := Host.Outcome.next.inj (hstep.symm.trans h)
    exact ⟨rfl, rfl⟩
  · obtain rfl := Host.Outcome.next.inj (hstep.symm.trans h)
    exact ⟨rfl, rfl⟩
  · obtain ⟨w, hw⟩ := exists_wordAtPc hrun hpc
    have hword := stepOnWord_of_step hw h
    exact ⟨hword.mem_eq, hword.stack_eq⟩

/-- Settles O32: every step keeps both at the values they had at the start of the run. -/
theorem memoryAndStackAreConstant : Obligations.MemoryAndStackAreConstant := by
  intro k s t
  refine afterTicks_of_step_keeps (P := fun u => u.mem = s.mem ∧ u.stack = s.stack) ?_ k s t ⟨rfl, rfl⟩
  rintro u v ⟨hmem, hstack⟩ h
  obtain ⟨hmem', hstack'⟩ := step_mem_stack_eq h
  exact ⟨hmem'.trans hmem, hstack'.trans hstack⟩

/-! ### What a step reads of memory (R61, R171) -/

/-- Memories that agree on the addresses of a sprite that fits give it the same rows. -/
theorem spriteRows_with_mem {s : State} {n : Nibble} {m : Memory} (hfits : SpriteFits s n)
    (hm : ∀ a, s.i.toNat ≤ a → a < s.i.toNat + n.toNat → m.read a = s.mem.read a) :
    spriteRows { s with mem := m } n = spriteRows s n := by
  refine List.map_congr_left fun r hr => ?_
  have hr : r < n.toNat := List.mem_range.mp hr
  have hin : s.i.toNat + r < 4096 := by rcases hfits with h | h <;> omega
  have hread := hm (s.i.toNat + r) (by omega) (by omega)
  rw [Memory.read_eq_some hin, Memory.read_eq_some hin] at hread
  exact Option.some.inj hread

theorem State.drawSprite_with_mem (s : State) (x y : Reg) (rows : List Byte) (m : Memory) :
    State.drawSprite { s with mem := m } x y rows = { s.drawSprite x y rows with mem := m } := by
  obtain ⟨hv, hd⟩ := State.drawSprite_v_disp_congr (s := s) (s' := { s with mem := m }) rfl rfl x y rows
  ext1 <;> simp [hv, hd]

/-- With another memory that holds the same sprite rows, a meaning does the same to the rest of the state and leaves that
memory. -/
theorem exec_with_mem {i : Instr} {s t : State} {m : Memory}
    (hrows : ∀ x y n, i = .drw x y n → SpriteFits s n → spriteRows { s with mem := m } n = spriteRows s n)
    (h : exec i s = .next t) : exec i { s with mem := m } = .next { t with mem := m } := by
  cases i with
  | cls | jp | ldVxByte | addVxByte | ldI | unknown =>
    obtain rfl := Host.Outcome.next.inj h
    rfl
  | drw x y n =>
    by_cases hfits : SpriteFits s n
    · obtain rfl := Host.Outcome.next.inj ((execDrw_of_fits hfits).symm.trans h)
      rw [← State.drawSprite_with_mem, ← hrows x y n rfl hfits]
      exact execDrw_of_fits (s := { s with mem := m }) hfits
    · obtain rfl := Host.Outcome.next.inj ((execDrw_of_not_fits hfits).symm.trans h)
      exact execDrw_of_not_fits (s := { s with mem := m }) hfits

/-- Only a word of class 0xD decodes to DRW, and its height is the low nibble of the word (R96, R100). -/
theorem class_height_of_decodeBytes_eq_drw {w : Word} {x y : Reg} {n : Nibble}
    (h : decodeBytes (hiByte w) (loByte w) = .drw x y n) : w.extractLsb' 12 4 = 0xD#4 ∧ w.extractLsb' 0 4 = n := by
  rcases decodeBytes_cases w with ⟨-, -, hd⟩ | ⟨-, hd⟩ | ⟨-, hd⟩ | ⟨-, hd⟩ | ⟨-, hd⟩ | ⟨hcls, hd⟩ | ⟨-, hd⟩
  case inr.inr.inr.inr.inr.inl =>
    obtain ⟨-, -, hn⟩ := Instr.drw.inj (hd.symm.trans h)
    exact ⟨hcls, hn⟩
  all_goals cases hd.symm.trans h

/-- Settles O41: the other memory holds the same word at `pc` and, where that word is a DRW that fits, the same rows. -/
theorem stepReadsOnlyFetchAndSpriteBytes : Obligations.StepReadsOnlyFetchAndSpriteBytes := by
  intro s t w m hw h hm
  have hw' : WordAtPc { s with mem := m } w :=
    ⟨hw.running, hw.inRange, (hm _ (.inl rfl)).trans hw.byte0, (hm _ (.inr (.inl rfl))).trans hw.byte1⟩
  rw [step_of_wordAtPc hw] at h
  rw [step_of_wordAtPc hw']
  refine exec_with_mem (fun x y n hdrw hfits => spriteRows_with_mem hfits fun a hle hlt => ?_) h
  obtain ⟨hcls, rfl⟩ := class_height_of_decodeBytes_eq_drw hdrw
  exact hm a (.inr (.inr ⟨hcls, hle, hlt⟩))

/-! ### The launch image (R75 to R77, R244) -/

/-- Loading a ROM replaces memory by a canonical image and touches nothing else, so it keeps the invariant. -/
theorem State.Inv.load {r : Word} {s : State} (h : s.Inv r) (rom : List Byte) : (s.load rom).Inv r :=
  { h with memWf := Memory.image_wf rom }

/-- Settles O44: the launch state is the reset state, loaded. -/
theorem launchHasInvariant : Obligations.LaunchHasInvariant :=
  fun r rom => (State.resetWith_inv r).load rom

/-- Below 0x200 the image reads zero. -/
theorem Memory.read_image_of_lt (rom : List Byte) {a : Nat} (h : a < 0x200) :
    (Memory.image rom).read a = some 0x00#8 := by
  rw [Memory.read_eq_some (by omega)]
  exact congrArg some (Memory.cell_imageFrom_of_lt h)

/-- From 0x200 on the image holds the ROM in order, and zero after its end. -/
theorem Memory.read_image_add (rom : List Byte) {j : Nat} (h : j < 3584) :
    (Memory.image rom).read (0x200 + j) = some (rom.getD j 0) := by
  have htake : (rom.take 3584).getD j 0 = rom.getD j 0 := by
    simp only [List.getD_eq_getElem?_getD, List.getElem?_take_of_lt h]
  rw [Memory.read_eq_some (by omega), ← htake]
  exact congrArg some Memory.cell_imageFrom_add

/-- Settles O46: an address is below the image, or at an offset inside the ROM, or past the ROM's end. -/
theorem launchImageOfRom : Obligations.LaunchImageOfRom := by
  rintro r rom s rfl
  refine ⟨fun a hle hlt => ?_, fun a ha hout => ?_, rfl⟩
  · obtain ⟨j, rfl⟩ := Nat.exists_eq_add_of_le hle
    have hj : j < rom.length := by omega
    rw [State.launch, State.load_mem, Memory.read_image_add rom (by omega), Nat.add_sub_cancel_left,
      List.getElem?_eq_getElem hj, List.getElem_eq_getD 0]
  · rcases Nat.lt_or_ge a 0x200 with hlt | hle
    · exact Memory.read_image_of_lt rom hlt
    · obtain ⟨j, rfl⟩ := Nat.exists_eq_add_of_le hle
      have hread := Memory.read_image_add rom (j := j) (by omega)
      rwa [List.getD_eq_default _ _ (by omega)] at hread

/-- Bytes past the 3584th do not reach the image. -/
theorem Memory.image_append {rom : List Byte} (h : rom.length = 3584) (tail : List Byte) :
    Memory.image (rom ++ tail) = Memory.image rom :=
  congrArg (Memory.imageFrom 0x200) (List.take_append_of_le_length (l₂ := tail) (Nat.le_of_eq h.symm))

/-- Settles O47: both ROMs give the same image, and its last byte is O46's at the last offset. -/
theorem longRomIsTruncated : Obligations.LongRomIsTruncated := by
  intro r rom tail hlen
  have hlaunch : State.launch r (rom ++ tail) = State.launch r rom :=
    congrArg (fun m => { State.resetWith r with mem := m }) (Memory.image_append hlen tail)
  obtain ⟨hbytes, -, -⟩ := launchImageOfRom r rom _ rfl
  exact ⟨hlaunch, hlaunch ▸ hbytes 0xFFF (by omega) (by omega)⟩

/-! ### Failed loads (R78, R213) -/

/-- The loader reports a failure exactly for a file that cannot be opened and for an empty one. -/
theorem loadReport_eq_some_iff {file : Option (List Byte)} {e : LoadError} :
    loadReport file = some e ↔ (file = none ∧ e = .ioError) ∨ (file = some [] ∧ e = .emptyRomError) := by
  rcases file with _ | _ | _ <;> simp [loadReport, eq_comm]

/-- A failed load leaves no listed byte. -/
theorem loadRom_of_failed {file : Option (List Byte)} {e : LoadError} (h : loadReport file = some e) :
    loadRom file = [] := by
  rcases loadReport_eq_some_iff.mp h with ⟨rfl, -⟩ | ⟨rfl, -⟩ <;> rfl

/-- Settles O48: the two reports are those of `loadReport_eq_some_iff`, and memory with no listed byte reads zero. -/
theorem failedLoadsLeaveZeroMemory : Obligations.FailedLoadsLeaveZeroMemory := by
  intro file
  refine ⟨by simp [loadReport_eq_some_iff], by simp [loadReport_eq_some_iff], fun e he a ha => ?_⟩
  rw [loadRom_of_failed he, Memory.read_eq_some (by omega)]
  rfl

end Sys2Proof.Machine
end

section
/-! PROOFS of the encoding statements (spec 30_encoding): words cut into fields and joined from them in the formats of R96,
the encoder as such a joining, and from these the fields, the decoder's rows and the two directions of the round trip. -/

namespace Sys2Proof

/-! ### The fields of a word joined again (R91, R92) -/

theorem y_append_n (w : Word) : w.extractLsb' 4 4 ++ w.extractLsb' 0 4 = w.extractLsb' 0 8 :=
  BitVec.extractLsb'_append_extractLsb'_eq_extractLsb' rfl

theorem x_append_nn (w : Word) : w.extractLsb' 8 4 ++ w.extractLsb' 0 8 = w.extractLsb' 0 12 :=
  BitVec.extractLsb'_append_extractLsb'_eq_extractLsb' rfl

theorem x_append_y (w : Word) : w.extractLsb' 8 4 ++ w.extractLsb' 4 4 = w.extractLsb' 4 8 :=
  BitVec.extractLsb'_append_extractLsb'_eq_extractLsb' rfl

theorem x_append_y_append_n (w : Word) :
    w.extractLsb' 8 4 ++ w.extractLsb' 4 4 ++ w.extractLsb' 0 4 = w.extractLsb' 0 12 := by
  rw [x_append_y]
  exact BitVec.extractLsb'_append_extractLsb'_eq_extractLsb' rfl

/-- Any two bytes have the fields of the word they join to. -/
theorem decodeFields_eq (b0 b1 : Byte) : decodeFields b0 b1 = wordFields (b0 ++ b1) := by
  rw [← decodeFields_hiByte_loByte]
  exact congrArg₂ decodeFields (hiByte_joinBytes b0 b1).symm (loByte_joinBytes b0 b1).symm

/-- Joining is shifting the upper part past the lower and `|`, as R93 and R103 write it. -/
theorem setWidth_append_eq {v w k : Nat} (hi : BitVec v) (lo : BitVec w) :
    (hi ++ lo).setWidth k = hi.setWidth k <<< w ||| lo.setWidth k := by
  apply BitVec.eq_of_getLsbD_eq
  intro j hj
  by_cases hjw : j < w
  · simp [BitVec.getLsbD_append, hj, hjw]
  · have hlo : lo.getLsbD j = false := BitVec.getLsbD_of_ge lo j (Nat.le_of_not_lt hjw)
    simp [BitVec.getLsbD_append, hj, hjw, hlo]

theorem append_eq_shiftLeft_or {v w : Nat} (hi : BitVec v) (lo : BitVec w) :
    hi ++ lo = hi.setWidth (v + w) <<< w ||| lo.setWidth (v + w) := by
  rw [← setWidth_append_eq hi lo, BitVec.setWidth_eq]

/-- Settles O6: the fields are slices of the joined word, adjacent slices join, and joining is shift and `|`. -/
theorem fieldsAreBitsOfWord : Obligations.FieldsAreBitsOfWord := by
  rintro b0 b1 f rfl
  rw [decodeFields_eq]
  generalize (b0 ++ b1 : Word) = w
  exact ⟨rfl, rfl, rfl, rfl, rfl, rfl, (y_append_n w).symm, (x_append_y_append_n w).symm,
    (x_append_nn w).symm.trans (append_eq_shiftLeft_or _ _)⟩

/-! ### The decoder by class and by row (R98, R100) -/

/-- Settles O5: in each of the seven cases of `decodeBytes_cases` the class selects that case's clause alone. -/
theorem decodeByClass : Obligations.DecodeByClass := by
  rintro w i rfl
  rcases decodeBytes_cases w with
    ⟨hcls, hlow, hd⟩ | ⟨hcls, hd⟩ | ⟨hcls, hd⟩ | ⟨hcls, hd⟩ | ⟨hcls, hd⟩ | ⟨hcls, hd⟩ | ⟨hunknown, hd⟩
  · simp [hd, hcls, hlow]
  case inr.inr.inr.inr.inr.inr =>
    obtain ⟨hnocls, hnojp, hnold, hnoadd, hnoldI, hnodrw⟩ := (isUnknownWord_iff w).mp hunknown
    simpa [hd, hnojp, hnold, hnoadd, hnoldI, hnodrw] using hnocls
  all_goals simp [hd, hcls]

/-- Settles O3: each mask and match tests the class, and for CLS the low byte; in each of the seven cases of
`decodeBytes_cases` these are those of the row decoded and of no other. -/
theorem decoderAgreesWithOpcodeMap : Obligations.DecoderAgreesWithOpcodeMap := by
  rintro w i rfl
  have hrow := and_F000_eq_iff w
  rw [and_F0FF_eq_iff, show w &&& 0xF000#16 = 0x1000#16 ↔ _ from hrow 0x1#4,
    show w &&& 0xF000#16 = 0x6000#16 ↔ _ from hrow 0x6#4, show w &&& 0xF000#16 = 0x7000#16 ↔ _ from hrow 0x7#4,
    show w &&& 0xF000#16 = 0xA000#16 ↔ _ from hrow 0xA#4, show w &&& 0xF000#16 = 0xD000#16 ↔ _ from hrow 0xD#4]
  rcases decodeBytes_cases w with
    ⟨hcls, hlow, hd⟩ | ⟨hcls, hd⟩ | ⟨hcls, hd⟩ | ⟨hcls, hd⟩ | ⟨hcls, hd⟩ | ⟨hcls, hd⟩ | ⟨hunknown, hd⟩
  · simp [isUnknownWord_iff, hd, hcls, hlow]
  case inr.inr.inr.inr.inr.inr =>
    obtain ⟨hnocls, hnojp, hnold, hnoadd, hnoldI, hnodrw⟩ := (isUnknownWord_iff w).mp hunknown
    simp [hd, hunknown, hnocls, hnojp, hnold, hnoadd, hnoldI, hnodrw]
  all_goals simp [isUnknownWord_iff, hd, hcls]

/-- A row whose mask covers the class field selects only words of the class its match gives. -/
theorem OpcodeRow.class_eq_of_selects {r : OpcodeRow} {w : Word} (hmask : r.mask.extractLsb' 12 4 = 0xF#4)
    (h : r.selects w = true) : w.extractLsb' 12 4 = r.pat.extractLsb' 12 4 := by
  have hpat : w &&& r.mask = r.pat := eq_of_beq h
  rw [← hpat, BitVec.extractLsb'_and, hmask]
  exact BitVec.and_allOnes.symm

/-- Settles O4: every row's mask covers the class field, and no two rows' matches give it the same value. -/
theorem opcodeRowsAreDisjoint : Obligations.OpcodeRowsAreDisjoint := by
  intro w
  have hmask : ∀ r ∈ opcodeRows, r.mask.extractLsb' 12 4 = 0xF#4 := by decide
  have hclass : opcodeRows.Pairwise fun r q => r.pat.extractLsb' 12 4 ≠ q.pat.extractLsb' 12 4 := by decide
  refine hclass.imp_of_mem fun hr hq hne ⟨hrw, hqw⟩ => hne ?_
  exact (OpcodeRow.class_eq_of_selects (hmask _ hr) hrw).symm.trans
    (OpcodeRow.class_eq_of_selects (hmask _ hq) hqw)

/-- Settles O7: the words of V1 to V9, evaluated. -/
theorem sampleWordsDecode : Obligations.SampleWordsDecode := by
  unfold Obligations.SampleWordsDecode
  decide

/-! ### The formats of R96 -/

/-- Format `NNN`: class and address. -/
def formatNNN (c : Nibble) (a : Addr) : Word := c ++ a

/-- Format `XNN`: class, register and byte. `E0` is this format with class 0x0 and byte 0xE0. -/
def formatXNN (c x : Nibble) (nn : Byte) : Word := formatNNN c (x ++ nn)

/-- Format `XYN`: class, two registers and a nibble. -/
def formatXYN (c x y n : Nibble) : Word := formatXNN c x (y ++ n)

section Formats

variable (c x y n : Nibble) (nn : Byte) (a : Addr)

@[simp] theorem class_formatNNN : (formatNNN c a).extractLsb' 12 4 = c := BitVec.extractLsb'_append_eq_left

@[simp] theorem nnn_formatNNN : (formatNNN c a).extractLsb' 0 12 = a := BitVec.extractLsb'_append_eq_right

@[simp] theorem class_formatXNN : (formatXNN c x nn).extractLsb' 12 4 = c := class_formatNNN c _

@[simp] theorem x_formatXNN : (formatXNN c x nn).extractLsb' 8 4 = x :=
  (BitVec.extractLsb'_append_eq_of_add_le (by decide)).trans BitVec.extractLsb'_append_eq_left

@[simp] theorem nn_formatXNN : (formatXNN c x nn).extractLsb' 0 8 = nn :=
  (BitVec.extractLsb'_append_eq_of_add_le (by decide)).trans BitVec.extractLsb'_append_eq_right

@[simp] theorem class_formatXYN : (formatXYN c x y n).extractLsb' 12 4 = c := class_formatXNN c x _

@[simp] theorem x_formatXYN : (formatXYN c x y n).extractLsb' 8 4 = x := x_formatXNN c x _

@[simp] theorem y_formatXYN : (formatXYN c x y n).extractLsb' 4 4 = y := by
  rw [← hiNibble_loByte, loByte, formatXYN, nn_formatXNN]
  exact BitVec.extractLsb'_append_eq_left

@[simp] theorem n_formatXYN : (formatXYN c x y n).extractLsb' 0 4 = n := by
  rw [← loNibble_loByte, loByte, formatXYN, nn_formatXNN]
  exact BitVec.extractLsb'_append_eq_right

end Formats

/-- Every word is its own fields in format `NNN`. -/
theorem formatNNN_fields (w : Word) : formatNNN (w.extractLsb' 12 4) (w.extractLsb' 0 12) = w :=
  (BitVec.extractLsb'_append_extractLsb'_eq_extractLsb' rfl).trans BitVec.extractLsb'_eq_self

/-- Every word is its own fields in format `XNN`. -/
theorem formatXNN_fields (w : Word) :
    formatXNN (w.extractLsb' 12 4) (w.extractLsb' 8 4) (w.extractLsb' 0 8) = w :=
  (congrArg (formatNNN _) (x_append_nn w)).trans (formatNNN_fields w)

/-- Every word is its own fields in format `XYN`. -/
theorem formatXYN_fields (w : Word) :
    formatXYN (w.extractLsb' 12 4) (w.extractLsb' 8 4) (w.extractLsb' 4 4) (w.extractLsb' 0 4) = w :=
  (congrArg (formatXNN _ _) (y_append_n w)).trans (formatXNN_fields w)

/-! ### The encoder in these formats (R103) -/

theorem formatNNN_eq (c : Nibble) (a : Addr) : formatNNN c a = c.setWidth 16 <<< 12 ||| a.setWidth 16 :=
  append_eq_shiftLeft_or c a

theorem formatXNN_eq (c x : Nibble) (nn : Byte) :
    formatXNN c x nn = c.setWidth 16 <<< 12 ||| x.setWidth 16 <<< 8 ||| nn.setWidth 16 := by
  rw [formatXNN, formatNNN_eq, setWidth_append_eq x nn, BitVec.or_assoc]

theorem formatXYN_eq (c x y n : Nibble) : formatXYN c x y n =
    c.setWidth 16 <<< 12 ||| x.setWidth 16 <<< 8 ||| y.setWidth 16 <<< 4 ||| n.setWidth 16 := by
  rw [formatXYN, formatXNN_eq, setWidth_append_eq y n, ← BitVec.or_assoc]

/-- A register number as a field of the word. -/
def regField (x : Reg) : Nibble := BitVec.ofFin x

@[simp] theorem regField_toFin (x : Nibble) : regField x.toFin = x := rfl

@[simp] theorem toFin_regField (x : Reg) : (regField x).toFin = x := rfl

theorem ofNat_reg (x : Reg) : BitVec.ofNat 16 x.val = (regField x).setWidth 16 :=
  BitVec.ofNat_toNat 16 (regField x)

theorem encodeWord_cls (x : Nibble) : encodeWord (.cls x) = formatXNN 0x0#4 x 0xE0#8 := by
  rw [formatXNN_eq, encodeWord, BitVec.or_comm]
  simp

theorem encodeWord_jp (a : Addr) : encodeWord (.jp a) = formatNNN 0x1#4 a :=
  (formatNNN_eq 0x1#4 a).symm

theorem encodeWord_ldVxByte (x : Reg) (nn : Byte) :
    encodeWord (.ldVxByte x nn) = formatXNN 0x6#4 (regField x) nn := by
  rw [formatXNN_eq, ← ofNat_reg]
  rfl

theorem encodeWord_addVxByte (x : Reg) (nn : Byte) :
    encodeWord (.addVxByte x nn) = formatXNN 0x7#4 (regField x) nn := by
  rw [formatXNN_eq, ← ofNat_reg]
  rfl

theorem encodeWord_ldI (a : Addr) : encodeWord (.ldI a) = formatNNN 0xA#4 a :=
  (formatNNN_eq 0xA#4 a).symm

theorem encodeWord_drw (x y : Reg) (n : Nibble) :
    encodeWord (.drw x y n) = formatXYN 0xD#4 (regField x) (regField y) n := by
  rw [formatXYN_eq, ← ofNat_reg, ← ofNat_reg]
  rfl

/-! ### The round trip (R90, R102) -/

/-- A byte list decodes exactly when it begins with the two bytes of a word, to what that word decodes to. -/
theorem decode_eq_ok_iff {bytes rest : List Byte} {i : Instr} : decode bytes = .ok (i, rest) ↔
    ∃ w, bytes = wordBytes w ++ rest ∧ decodeBytes (hiByte w) (loByte w) = i := by
  constructor
  · intro h
    match bytes, h with
    | b0 :: b1 :: _, h =>
      obtain ⟨rfl, rfl⟩ := Prod.mk.inj (Except.ok.inj h)
      refine ⟨joinBytes b0 b1, ?_, ?_⟩
      · rw [wordBytes, hiByte_joinBytes, loByte_joinBytes]
        rfl
      · rw [hiByte_joinBytes, loByte_joinBytes]
  · rintro ⟨w, rfl, rfl⟩
    rfl

theorem wf_decodeBytes (w : Word) : (decodeBytes (hiByte w) (loByte w)).wf = true := by
  rcases decodeBytes_cases w with
    ⟨-, -, hd⟩ | ⟨-, hd⟩ | ⟨-, hd⟩ | ⟨-, hd⟩ | ⟨-, hd⟩ | ⟨-, hd⟩ | ⟨hunknown, hd⟩ <;> rw [hd]
  case inr.inr.inr.inr.inr.inr => exact hunknown
  all_goals rfl

/-- Encoding joins the fields that decoding cut, so it gives the word back. -/
theorem encodeWord_decodeBytes (w : Word) : encodeWord (decodeBytes (hiByte w) (loByte w)) = w := by
  rcases decodeBytes_cases w with
    ⟨hcls, hlow, hd⟩ | ⟨hcls, hd⟩ | ⟨hcls, hd⟩ | ⟨hcls, hd⟩ | ⟨hcls, hd⟩ | ⟨hcls, hd⟩ | ⟨-, hd⟩ <;> rw [hd]
  · rw [encodeWord_cls, ← hcls, ← hlow, formatXNN_fields]
  · rw [encodeWord_jp, ← hcls, formatNNN_fields]
  · rw [encodeWord_ldVxByte, ← hcls, regField_toFin, formatXNN_fields]
  · rw [encodeWord_addVxByte, ← hcls, regField_toFin, formatXNN_fields]
  · rw [encodeWord_ldI, ← hcls, formatNNN_fields]
  · rw [encodeWord_drw, ← hcls, regField_toFin, regField_toFin, formatXYN_fields]
  · rfl

/-- Settles O2: the list begins with the two bytes of a word, and that word is the decoded instruction's own. -/
theorem encodeOfDecodeIsIdentity : Obligations.EncodeOfDecodeIsIdentity := by
  intro bytes rest i h
  obtain ⟨w, rfl, rfl⟩ := decode_eq_ok_iff.mp h
  exact ⟨wf_decodeBytes w, by rw [encode, encodeWord_decodeBytes]⟩

/-- A word no row selects decodes to an unknown instruction, and the only one that encodes to it carries it. -/
theorem decodeBytes_of_isUnknownWord {w : Word} (h : isUnknownWord w = true) :
    decodeBytes (hiByte w) (loByte w) = .unknown w := by
  obtain ⟨-, -, -, -, -, -, hunknown⟩ := decoderAgreesWithOpcodeMap w _ rfl
  obtain ⟨u, hu⟩ := hunknown.mpr h
  have hw : encodeWord (.unknown u) = w := hu ▸ encodeWord_decodeBytes w
  exact hu.trans (congrArg Instr.unknown hw)

/-- The word of a well-formed instruction decodes to it: its class field selects the instruction and its other fields
are the operands. -/
theorem decodeBytes_encodeWord {i : Instr} (hwf : i.wf = true) :
    decodeBytes (hiByte (encodeWord i)) (loByte (encodeWord i)) = i := by
  obtain ⟨hcls, hjp, hld, hadd, hldI, hdrw, -⟩ := decodeByClass (encodeWord i) _ rfl
  cases i with
  | cls x => simpa [encodeWord_cls] using hcls
  | jp a => simpa [encodeWord_jp] using hjp
  | ldVxByte x nn => simpa [encodeWord_ldVxByte] using hld
  | addVxByte x nn => simpa [encodeWord_addVxByte] using hadd
  | ldI a => simpa [encodeWord_ldI] using hldI
  | drw x y n => simpa [encodeWord_drw] using hdrw
  | unknown w => exact decodeBytes_of_isUnknownWord hwf

/-- Settles O1: the list begins with the two bytes of the instruction's word, which decodes to the instruction. -/
theorem decodeOfEncodeIsIdentity : Obligations.DecodeOfEncodeIsIdentity :=
  fun i _ hwf => decode_eq_ok_iff.mpr ⟨encodeWord i, rfl, decodeBytes_encodeWord hwf⟩

end Sys2Proof
end

section
/-! PROOF of the statement on fetch, decode and execute (spec 40_fetch_decode_execute): the step on two fetched bytes. -/

namespace Sys2Proof.Machine

/-- Settles O8: the two bytes fetched are those of a word at `pc`, and the step on that word is the meaning of the
instruction it decodes to (R120, R123). Every word decodes to a well-formed instruction, so that hypothesis is not
needed. -/
theorem stepRunsDecodedInstruction : Obligations.StepRunsDecodedInstruction := by
  intro s byte0 byte1 i hrun hpc hread0 hread1 hdecode _
  obtain ⟨w, hbytes, rfl⟩ := decode_eq_ok_iff.mp hdecode
  obtain ⟨rfl, rfl⟩ : byte0 = hiByte w ∧ byte1 = loByte w := by simpa [wordBytes] using hbytes
  have hword : WordAtPc s w := ⟨hrun, hpc, hread0, hread1⟩
  exact step_of_wordAtPc hword

end Sys2Proof.Machine
end

section
/-! PROOFS of the statements on display clear (spec 41_cls): each non-drawing meaning as one equation, and from these their
next states, their frames and the step on the sixteen CLS words. -/

namespace Sys2Proof.Machine

/-! ### The meanings but DRW, one equation each (R123) -/

theorem exec_cls (x : Nibble) (s : State) : exec (.cls x) s = .next s.advance.clearDisplay := rfl

theorem exec_jp (a : Addr) (s : State) : exec (.jp a) s = .next (s.advance.setPc (addrOperand a)) := rfl

theorem exec_ldVxByte (x : Reg) (nn : Byte) (s : State) :
    exec (.ldVxByte x nn) s = .next (s.advance.writeReg x nn) := rfl

theorem exec_addVxByte (x : Reg) (nn : Byte) (s : State) :
    exec (.addVxByte x nn) s = .next (s.advance.writeReg x (s.readReg x + nn)) := rfl

theorem exec_ldI (a : Addr) (s : State) : exec (.ldI a) s = .next (s.advance.setI (addrOperand a)) := rfl

theorem exec_unknown (w : Word) (s : State) :
    exec (.unknown w) s = .next (s.advance.emit (.diag .unknownInstruction w s.pc)) := rfl

/-- Settles O27: the equations above, with the named operations written out as the fields they set. -/
theorem nonDrawingInstructionsComplete : Obligations.NonDrawingInstructionsComplete :=
  fun s => ⟨fun x => exec_cls x s, fun a => exec_jp a s, fun x nn => exec_ldVxByte x nn s,
    fun x nn => exec_addVxByte x nn s, fun a => exec_ldI a s, fun w => exec_unknown w s⟩

/-- Settles O30: each meaning has one next state, and the operations that make it up keep every other field. -/
theorem nonRegisterInstructionsFrame : Obligations.NonRegisterInstructionsFrame := by
  intro s t
  refine ⟨fun x h => ?_, fun a h => ?_, fun a h => ?_, fun w h => ?_⟩
  · obtain rfl := Host.Outcome.next.inj ((exec_cls x s).symm.trans h)
    simp
  · obtain rfl := Host.Outcome.next.inj ((exec_jp a s).symm.trans h)
    simp
  · obtain rfl := Host.Outcome.next.inj ((exec_ldI a s).symm.trans h)
    simp
  · obtain rfl := Host.Outcome.next.inj ((exec_unknown w s).symm.trans h)
    simp

/-! ### The sixteen CLS words (R140, R141) -/

/-- A word of the CLS row, whatever its field X, steps to the cleared display. -/
theorem step_of_cls_word {s : State} {w : Word} (hw : WordAtPc s w) (hrow : w &&& 0xF0FF#16 = 0x00E0#16) :
    step s = .next s.advance.clearDisplay := by
  obtain ⟨hcls, -⟩ := decoderAgreesWithOpcodeMap w _ rfl
  obtain ⟨x, hd⟩ := hcls.mpr hrow
  rw [step_of_wordAtPc hw, hd, exec_cls]

/-- Settles O16: in the state that `step_of_cls_word` gives, the display is blank and only it and `pc` were set. -/
theorem clsClearsDisplay : Obligations.ClsClearsDisplay :=
  fun _ _ hw hrow => ⟨_, step_of_cls_word hw hrow, Display.get_blank, rfl⟩

end Sys2Proof.Machine
end

section
/-! PROOFS of the statements on the jump (spec 42_jp): its step, the fetch fault of a target that cannot be fetched from,
and a step that other registers and another display do not steer. -/

namespace Sys2Proof.Machine

/-! ### The jump and its target (R150) -/

/-- The word of `JP addr` steps to the state with `pc` at the zero-extended address. -/
theorem step_of_jp_word {s : State} {a : Addr} (hw : WordAtPc s (encodeWord (.jp a))) :
    step s = .next (s.setPc (addrOperand a)) := by
  rw [step_of_wordAtPc hw, decodeBytes_encodeWord rfl, exec_jp]
  rfl

/-- A running engine whose `pc` cannot be fetched from raises the fetch fault (R121). -/
theorem step_of_unfetchable {s : State} (hrun : s.status = .running) (hpc : 0x0FFE < s.pc.toNat) :
    step s = .next (s.raiseFault .fetchOutOfRange (faultAddr s.pc)) :=
  (step_of_running hrun).trans (fetchThen_of_gt _ hpc)

/-- Settles O17: the word is the one that encodes the jump, whose step `step_of_jp_word` gives; the target 0xFFF is the
highest address, where no two-byte word fits, so the next step faults. -/
theorem jpLoadsTarget : Obligations.JpLoadsTarget := by
  intro s addr hw
  refine ⟨step_of_jp_word hw, ?_⟩
  rintro rfl
  have hpc : 0x0FFE < (0x0FFF#16 : Word).toNat := by decide
  exact step_of_unfetchable (s := s.setPc 0x0FFF#16) hw.running hpc

/-! ### Registers and display do not steer a step (R151) -/

/-- With other registers and another display, a meaning leaves the same state but for the registers and the display:
its own address field or `I` gives every address that it jumps to, loads or reads from. -/
theorem exec_with_v_disp {i : Instr} {s t : State} (v : Vector Byte 16) (d : Display) (h : exec i s = .next t) :
    ∃ t', exec i { s with v := v, disp := d } = .next t' ∧ t' = { t with v := t'.v, disp := t'.disp } := by
  cases i with
  | cls | jp | ldVxByte | addVxByte | ldI | unknown =>
    obtain rfl := Host.Outcome.next.inj h
    exact ⟨_, rfl, rfl⟩
  | drw x y n =>
    rcases execDrw_cases_of_same_rows (s := s) (s' := { s with v := v, disp := d }) rfl rfl x y n with
      ⟨rows, hs, hs'⟩ | ⟨a, hs, hs'⟩ <;> obtain rfl := Host.Outcome.next.inj (hs.symm.trans h)
    · exact ⟨_, hs', by ext1 <;> simp⟩
    · exact ⟨_, hs', rfl⟩

/-- The same of a step: fetch reads `status`, `pc` and memory only. -/
theorem step_with_v_disp {s t : State} (v : Vector Byte 16) (d : Display) (h : step s = .next t) :
    ∃ t', step { s with v := v, disp := d } = .next t' ∧ t' = { t with v := t'.v, disp := t'.disp } := by
  rcases step_cases_of_same_fetch (s := s) (s' := { s with v := v, disp := d }) rfl rfl rfl with
    ⟨hs, hs'⟩ | ⟨a, hs, hs'⟩ | ⟨i, hs, hs'⟩
  · obtain rfl := Host.Outcome.next.inj (hs.symm.trans h)
    exact ⟨_, hs', rfl⟩
  · obtain rfl := Host.Outcome.next.inj (hs.symm.trans h)
    exact ⟨_, hs', rfl⟩
  · rw [hs']
    exact exec_with_v_disp v d (hs.symm.trans h)

/-- Settles O38: the two next states differ in registers and display only. -/
theorem controlFlowIgnoresData : Obligations.ControlFlowIgnoresData := by
  intro s t t' v d h h'
  obtain ⟨u, hu, heq⟩ := step_with_v_disp v d h
  obtain rfl := Host.Outcome.next.inj (hu.symm.trans h')
  rw [heq]
  exact ⟨rfl, rfl, rfl, rfl⟩

end Sys2Proof.Machine
end

section
/-! PROOFS of the statements on the register loads (spec 43_ld_add_vx_byte): the steps of `LD Vx, byte` and
`ADD Vx, byte`, each one write to `V[X]` after the advance of `pc`, and what such a write leaves unchanged. -/

namespace Sys2Proof.Machine

/-! ### The two words (R160, R161) -/

theorem step_of_ldVxByte_word {s : State} {x : Reg} {nn : Byte} (hw : WordAtPc s (encodeWord (.ldVxByte x nn))) :
    step s = .next (s.advance.writeReg x nn) := by
  rw [step_of_wordAtPc hw, decodeBytes_encodeWord rfl, exec_ldVxByte]

theorem step_of_addVxByte_word {s : State} {x : Reg} {nn : Byte} (hw : WordAtPc s (encodeWord (.addVxByte x nn))) :
    step s = .next (s.advance.writeReg x (s.readReg x + nn)) := by
  rw [step_of_wordAtPc hw, decodeBytes_encodeWord rfl, exec_addVxByte]

/-! ### A register write after the advance of `pc` -/

section RegisterWrite

variable (s : State) (x : Reg) (b : Byte)

theorem State.advance_writeReg_v_self : (s.advance.writeReg x b).v[x] = b :=
  s.advance.readReg_writeReg_self x b

theorem State.advance_writeReg_v_of_ne (y : Reg) (hy : y ≠ x) : (s.advance.writeReg x b).v[y] = s.v[y] :=
  s.advance.readReg_writeReg_of_ne b hy

end RegisterWrite

/-- Settles O18: the word is the one that encodes the load, whose step writes the byte to `V[X]`. -/
theorem ldVxByteAssigns : Obligations.LdVxByteAssigns := by
  intro s x nn hw
  exact ⟨_, step_of_ldVxByte_word hw, s.advance_writeReg_v_self x nn, s.advance_writeReg_v_of_ne x nn, rfl⟩

/-- Settles O19: the word is the one that encodes the addition, whose step writes the 8-bit sum to `V[X]`; a sum of bytes
is the sum of their numbers modulo 256. -/
theorem addVxByteWraps : Obligations.AddVxByteWraps := by
  intro s x nn hw
  refine ⟨_, step_of_addVxByte_word hw, ?_, s.advance_writeReg_v_of_ne x _, rfl⟩
  rw [s.advance_writeReg_v_self]
  exact BitVec.toNat_add (s.readReg x) nn

/-- A register load has one next state, the byte written to `V[X]` after the advance of `pc`. -/
theorem eq_advance_writeReg_of_exec {s t : State} {x : Reg} {nn : Byte}
    (h : exec (.ldVxByte x nn) s = .next t ∨ exec (.addVxByte x nn) s = .next t) :
    ∃ b, t = s.advance.writeReg x b := by
  rcases h with h | h
  · exact ⟨nn, Host.Outcome.next.inj (h.symm.trans (exec_ldVxByte x nn s))⟩
  · exact ⟨s.readReg x + nn, Host.Outcome.next.inj (h.symm.trans (exec_addVxByte x nn s))⟩

/-- Settles O29: either meaning writes one byte to `V[X]` after the advance of `pc`, which keeps every other field. -/
theorem registerLoadsFrame : Obligations.RegisterLoadsFrame := by
  intro s t x nn h
  obtain ⟨b, rfl⟩ := eq_advance_writeReg_of_exec h
  refine ⟨s.advance_writeReg_v_of_ne x b, ?_⟩
  simp

end Sys2Proof.Machine
end

section
/-! PROOF of the statement on the address load (spec 44_ld_i_addr): its step, the sprites that fit at the highest address
it can load, and the words of class 0xA as the words that encode it. -/

namespace Sys2Proof.Machine

/-- The word of `LD I, addr` steps to the state with `I` at the zero-extended address. -/
theorem step_of_ldI_word {s : State} {a : Addr} (hw : WordAtPc s (encodeWord (.ldI a))) :
    step s = .next (s.advance.setI (addrOperand a)) := by
  rw [step_of_wordAtPc hw, decodeBytes_encodeWord rfl, exec_ldI]

/-- With `I` at the last byte of memory there is room for one sprite row (R170, R181). -/
theorem spriteFits_iff_of_i_eq_last {s : State} (hi : s.i.toNat = 4095) (n : Nibble) :
    SpriteFits s n ↔ n.toNat ≤ 1 := by
  unfold SpriteFits
  omega

/-- A word of class 0xA is the word of `LD I` with its own address field. -/
theorem encodeWord_ldI_of_class {w : Word} (hcls : w.extractLsb' 12 4 = 0xA#4) :
    encodeWord (.ldI (w.extractLsb' 0 12)) = w := by
  rw [encodeWord_ldI, ← hcls, formatNNN_fields]

/-- Settles O20: the word is the one that encodes the load, whose step sets `I` after the advance of `pc`; and a step that
changes `I` has a word of class 0xA at `pc`, which is such a word. -/
theorem ldILoadsAddress : Obligations.LdILoadsAddress := by
  constructor
  · intro s addr hw
    refine ⟨_, step_of_ldI_word hw, rfl, ?_⟩
    rintro rfl
    exact spriteFits_iff_of_i_eq_last (addrOperand_toNat 0xFFF#12)
  · intro s t h hne
    rcases step_i_cases h with hi | ⟨w, hw, hcls, -⟩
    · exact absurd hi hne
    · rw [← encodeWord_ldI_of_class hcls] at hw
      exact ⟨w.extractLsb' 0 12, hw⟩

end Sys2Proof.Machine
end

section
/-! PROOFS of the statements on the sprite renderer (spec 45_drw): the two outcomes of DRW, the display and the flag it
leaves in the closed form of R185, and from these the effect of one draw, of two, and of a sprite with no set bit. -/

namespace Sys2Proof.Machine

/-! ### The two outcomes of DRW, from its meaning and from its word (R180, R181) -/

section Outcomes

variable {s : State} {x y : Reg} {n : Nibble}

theorem exec_drw_of_fits (hfits : SpriteFits s n) :
    exec (.drw x y n) s = .next (s.drawSprite x y (spriteRows s n)) :=
  execDrw_of_fits hfits

theorem exec_drw_of_not_fits (hfits : ¬ SpriteFits s n) :
    exec (.drw x y n) s = .next (s.raiseFault .spriteReadOutOfRange (faultAddr s.i)) :=
  execDrw_of_not_fits hfits

theorem step_of_drw_word (hw : WordAtPc s (encodeWord (.drw x y n))) : step s = exec (.drw x y n) s := by
  rw [step_of_wordAtPc hw, decodeBytes_encodeWord rfl]

theorem not_spriteFits_iff : ¬ SpriteFits s n ↔ 0 < n.toNat ∧ 4095 < s.i.toNat + n.toNat - 1 := by
  unfold SpriteFits
  omega

end Outcomes

/-- Settles O23: the first clause is `¬ SpriteFits`, where DRW raises its fault; a sprite that fits is drawn, which keeps
`status`; and the last is arithmetic. -/
theorem drwFaultsIffSpriteLeavesMemory : Obligations.DrwFaultsIffSpriteLeavesMemory := by
  intro s x y n hw
  have hstep := step_of_drw_word hw
  refine ⟨fun hover => ?_, fun hfits => ?_, fun hi => ?_⟩
  · exact hstep.trans (exec_drw_of_not_fits (not_spriteFits_iff.mpr hover))
  · exact ⟨_, hstep.trans (exec_drw_of_fits hfits), (State.drawSprite_status s x y _).trans hw.running⟩
  · unfold SpriteFits
    omega

/-! ### The closed form of R185 -/

section ClosedForm

variable {s : State} {x y : Reg} {n : Nibble}

theorem spriteRows_length_le (s : State) (n : Nibble) : (spriteRows s n).length ≤ 32 := by
  have hn := n.isLt
  rw [spriteRows_length]
  omega

/-- `Disp' = Disp xor M`, cell by cell. -/
theorem get_disp_drawSprite (hfits : SpriteFits s n) (px : Fin 64) (py : Fin 32) :
    Display.get (s.drawSprite x y (spriteRows s n)).disp px py =
      (Display.get s.disp px py ^^ decide (SpriteMask s x y n px py)) := by
  rw [State.drawSprite_disp s x y _ (spriteRows_length_le s n)]
  exact congrArg _ (decide_eq_decide.mpr (spriteMask_iff hfits px py).symm)

/-- Some cell under the sprite mask holds `c`. -/
abbrev MaskedCell (s : State) (x y : Reg) (n : Nibble) (c : Bool) : Prop :=
  ∃ px py, SpriteMask s x y n px py ∧ Display.get s.disp px py = c

/-- The flag is 1 if a cell under the mask was on, else 0. -/
theorem flag_drawSprite (hfits : SpriteFits s n) :
    (s.drawSprite x y (spriteRows s n)).v[15] = if MaskedCell s x y n true then 0x01#8 else 0x00#8 := by
  refine (State.drawSprite_flag s x y _ (spriteRows_length_le s n)).trans (if_congr ?_ rfl rfl)
  rw [Prod.exists]
  exact exists_congr fun px => exists_congr fun py => and_congr_left' (spriteMask_iff hfits px py).symm

theorem v_drawSprite_of_ne (rows : List Byte) {r : Reg} (hr : r ≠ 15) : (s.drawSprite x y rows).v[r] = s.v[r] :=
  State.drawSprite_readReg s x y rows hr

theorem flag_drawSprite_eq_one (hfits : SpriteFits s n) (hon : MaskedCell s x y n true) :
    (s.drawSprite x y (spriteRows s n)).v[15] = 0x01#8 :=
  (flag_drawSprite hfits).trans (if_pos hon)

theorem flag_drawSprite_eq_zero (hfits : SpriteFits s n) (hoff : ¬ MaskedCell s x y n true) :
    (s.drawSprite x y (spriteRows s n)).v[15] = 0x00#8 :=
  (flag_drawSprite hfits).trans (if_neg hoff)

theorem get_disp_drawSprite_of_mask (hfits : SpriteFits s n) {px : Fin 64} {py : Fin 32}
    (hmask : SpriteMask s x y n px py) :
    Display.get (s.drawSprite x y (spriteRows s n)).disp px py = !Display.get s.disp px py := by
  rw [get_disp_drawSprite hfits, decide_eq_true hmask, Bool.xor_true]

theorem get_disp_drawSprite_of_not_mask (hfits : SpriteFits s n) {px : Fin 64} {py : Fin 32}
    (hmask : ¬ SpriteMask s x y n px py) :
    Display.get (s.drawSprite x y (spriteRows s n)).disp px py = Display.get s.disp px py := by
  rw [get_disp_drawSprite hfits, decide_eq_false hmask, Bool.xor_false]

end ClosedForm

/-- Settles O22: the word is the one that encodes the DRW, and the state its step draws has the display, the flag and the
other registers of the closed form. -/
theorem drwXorsSpriteMask : Obligations.DrwXorsSpriteMask := by
  intro s x y n hw hfits
  exact ⟨_, (step_of_drw_word hw).trans (exec_drw_of_fits hfits),
    fun _ _ => get_disp_drawSprite_of_mask hfits, fun _ _ => get_disp_drawSprite_of_not_mask hfits,
    flag_drawSprite_eq_one hfits, flag_drawSprite_eq_zero hfits, fun _ => v_drawSprite_of_ne _,
    by ext1 <;> simp⟩

/-- Settles O28: the drawn state's fields, its flag by the two cases of `flag_drawSprite`, and a cell that differs from the
old one exactly where it was toggled. -/
theorem drwCompletesWhenSpriteFits : Obligations.DrwCompletesWhenSpriteFits := by
  intro s x y n hfits
  refine ⟨_, exec_drw_of_fits hfits, State.drawSprite_pc .., State.drawSprite_status .., State.drawSprite_events ..,
    ?_, fun px py => ?_⟩
  · rw [flag_drawSprite hfits]
    exact (ite_eq_or_eq _ _ _).symm
  · by_cases hmask : SpriteMask s x y n px py
    · simp [get_disp_drawSprite_of_mask hfits hmask, hmask]
    · simp [get_disp_drawSprite_of_not_mask hfits hmask, hmask]

/-- Settles O31: a drawn sprite keeps all that the statement names, and so does the fault, which sets `status` only. -/
theorem drwFrame : Obligations.DrwFrame := by
  intro s t x y n h
  by_cases hfits : SpriteFits s n
  · obtain rfl := Host.Outcome.next.inj ((exec_drw_of_fits hfits).symm.trans h)
    exact ⟨fun _ => v_drawSprite_of_ne _, by simp, by simp, by simp,
      fun _ _ => get_disp_drawSprite_of_not_mask hfits⟩
  · obtain rfl := Host.Outcome.next.inj ((exec_drw_of_not_fits hfits).symm.trans h)
    exact ⟨fun _ _ => rfl, rfl, rfl, fun _ => rfl, fun _ _ _ => rfl⟩

/-! ### Sprites that toggle no cell (R186, R188) -/

/-- What DRW leaves when its mask is empty: the flag cleared, one `Refresh`, `pc` advanced. -/
theorem drawSprite_of_mask_empty {s : State} {x y : Reg} {n : Nibble} (hfits : SpriteFits s n)
    (hmask : ∀ px py, ¬ SpriteMask s x y n px py) :
    s.drawSprite x y (spriteRows s n) = s.advance.clearCollision.emit .refresh := by
  have hcells : cellsFrom (baseColumn (s.readReg x)) (baseRow (s.readReg y)) 0 (spriteRows s n) = [] :=
    List.eq_nil_iff_forall_not_mem.mpr fun ⟨px, py⟩ hc => hmask px py ((spriteMask_iff hfits px py).mpr hc)
  rw [State.drawSprite, hcells, State.plotAll_nil]

/-- Settles O24: the word is the one that encodes DRW with `N = 0`, which draws the sprite with no rows. -/
theorem drwOfNoRowsClearsFlag : Obligations.DrwOfNoRowsClearsFlag := by
  intro s x y hw
  have hw' : WordAtPc s (encodeWord (.drw x y 0x0#4)) := by
    rwa [encodeWord, BitVec.setWidth_zero, BitVec.or_zero]
  exact (step_of_drw_word hw').trans (execDrw_zero x y s)

/-- Rows of 0x00 have no set bit, so their mask is empty. -/
theorem not_spriteMask_of_blank {s : State} {n : Nibble} (hfits : SpriteFits s n)
    (hblank : ∀ r, r < n.toNat → s.i.toNat + r ≤ 4095 → s.mem.read (s.i.toNat + r) = some 0x00#8)
    (x y : Reg) (px : Fin 64) (py : Fin 32) : ¬ SpriteMask s x y n px py := by
  rintro ⟨r, hr, b, -, hbit, -⟩
  have hread := hblank r hr (by rcases hfits with h | h <;> omega)
  simp [SpriteBitSet, hread] at hbit

/-- Settles O26: a blank sprite that fits has an empty mask, and the range test does not look at the rows. -/
theorem blankSpriteTogglesNothing : Obligations.BlankSpriteTogglesNothing := by
  intro s x y n hblank
  constructor
  · intro hfits
    rw [exec_drw_of_fits hfits, drawSprite_of_mask_empty hfits (not_spriteMask_of_blank hfits hblank x y)]
    rfl
  · intro hfits
    exact ⟨_, exec_drw_of_not_fits hfits⟩

/-! ### Drawing twice (R187) -/

/-- The mask comes from the two coordinates, `I` and memory alone. -/
theorem spriteMask_congr {s s' : State} {x y : Reg} {n : Nibble} (hx : s'.v[x] = s.v[x]) (hy : s'.v[y] = s.v[y])
    (hi : s'.i = s.i) (hmem : s'.mem = s.mem) (px : Fin 64) (py : Fin 32) :
    SpriteMask s' x y n px py ↔ SpriteMask s x y n px py := by
  simp only [SpriteMask, SpriteBitSet, hx, hy, hi, hmem]

/-- Settles O25: both draws have the same mask, so the second toggles back what the first toggled, and a cell that the
second finds on under the mask is one that the first found off. -/
theorem drawingTwiceRestoresDisplay : Obligations.DrawingTwiceRestoresDisplay := by
  intro s t s' x y n hfits h hdisp hx hy hi hmem
  obtain rfl := Host.Outcome.next.inj ((exec_drw_of_fits hfits).symm.trans h)
  have hfits' : SpriteFits s' n := by rwa [SpriteFits, hi]
  have hmask := spriteMask_congr (n := n) hx hy hi hmem
  have hcell : MaskedCell s' x y n true ↔ MaskedCell s x y n false := by
    refine exists_congr fun px => exists_congr fun py => ?_
    rw [hmask px py]
    refine and_congr_right fun hm => ?_
    rw [hdisp, get_disp_drawSprite_of_mask hfits hm, Bool.not_eq_true']
  refine ⟨_, exec_drw_of_fits hfits', Display.ext_get fun px py => ?_, flag_drawSprite_eq_one hfits,
    flag_drawSprite_eq_zero hfits, fun hoff => flag_drawSprite_eq_one hfits' (hcell.mpr hoff),
    fun hon => flag_drawSprite_eq_zero hfits' (hcell.not.mpr hon)⟩
  rw [get_disp_drawSprite hfits', hdisp, get_disp_drawSprite hfits, decide_eq_decide.mpr (hmask px py), Bool.xor_assoc,
    Bool.xor_self, Bool.xor_false]

end Sys2Proof.Machine
end

section
/-! PROOFS of the statements on unknown words (spec 46_unknown): the step on a word that no row of the opcode map selects,
and its repetition over zero memory, which ends in the fetch fault at 0x1000. -/

namespace Sys2Proof.Machine

/-! ### The step on an unknown word (R200, R203) -/

/-- A word that no row selects steps past itself and leaves its diagnostic. -/
theorem step_of_unknown_word {s : State} {w : Word} (hw : WordAtPc s w) (hu : isUnknownWord w = true) :
    step s = .next (s.advance.emit (.diag .unknownInstruction w s.pc)) := by
  rw [step_of_wordAtPc hw, decodeBytes_of_isUnknownWord hu, exec_unknown]

/-- The words of the ten classes that have no row are unknown whatever their other bits. -/
theorem isUnknownWord_of_unlisted_class {w : Word}
    (h : w.extractLsb' 12 4 ∈ [0x2#4, 0x3#4, 0x4#4, 0x5#4, 0x8#4, 0x9#4, 0xB#4, 0xC#4, 0xE#4, 0xF#4]) :
    isUnknownWord w = true := by
  rw [isUnknownWord_iff]
  generalize w.extractLsb' 12 4 = c at h
  have notListed : ∀ c ∈ [0x2#4, 0x3#4, 0x4#4, 0x5#4, 0x8#4, 0x9#4, 0xB#4, 0xC#4, 0xE#4, 0xF#4],
      c ≠ 0x0#4 ∧ c ≠ 0x1#4 ∧ c ≠ 0x6#4 ∧ c ≠ 0x7#4 ∧ c ≠ 0xA#4 ∧ c ≠ 0xD#4 := by decide
  obtain ⟨h0, hrows⟩ := notListed c h
  exact ⟨fun hcls => h0 hcls.1, hrows⟩

/-- The words of class 0 are unknown but for the sixteen CLS words (R142). -/
theorem isUnknownWord_of_class_zero {w : Word} (hcls : w.extractLsb' 12 4 = 0x0#4) (hlow : w.extractLsb' 0 8 ≠ 0xE0#8) :
    isUnknownWord w = true := by
  simp [isUnknownWord_iff, hcls, hlow]

/-- Settles O21: in both clauses no row of the opcode map selects the word, and `step_of_unknown_word` gives its step. -/
theorem unknownWordIsSkipped : Obligations.UnknownWordIsSkipped := by
  rintro s w hw (hcls | ⟨hcls, hlow⟩)
  · exact step_of_unknown_word hw (isUnknownWord_of_unlisted_class hcls)
  · exact step_of_unknown_word hw (isUnknownWord_of_class_zero hcls hlow)

/-! ### Execution over zero memory (R202, R251) -/

/-- One tick more is a step from where the run stands. -/
theorem afterTicks_succ_eq_step {k : Nat} {s t : State} (h : afterTicks k s = .next t) :
    afterTicks (k + 1) s = step t := by
  induction k generalizing s with
  | zero =>
    obtain rfl := Host.Outcome.next.inj h
    obtain ⟨u, hu⟩ := exists_step_next s
    rw [afterTicks_succ_of_step 0 hu, afterTicks_zero, hu]
  | succ k ih =>
    obtain ⟨u, hu⟩ := exists_step_next s
    rw [afterTicks_succ_of_step k hu] at h
    rw [afterTicks_succ_of_step (k + 1) hu, ih h]

/-- `s` after `k` unknown words 0x0000 have been skipped: `pc` is 2k higher, and each has left its diagnostic. -/
def State.slide (s : State) (k : Nat) : State :=
  { s with
    pc := BitVec.ofNat 16 (s.pc.toNat + 2 * k)
    events := s.events ++ (List.range k).map fun j =>
      .diag .unknownInstruction 0x0000#16 (BitVec.ofNat 16 (s.pc.toNat + 2 * j)) }

@[simp] theorem State.slide_zero (s : State) : s.slide 0 = s := by
  simp [State.slide]

theorem State.slide_succ (s : State) (k : Nat) :
    s.slide (k + 1) = (s.slide k).advance.emit (.diag .unknownInstruction 0x0000#16 (s.slide k).pc) := by
  have hpc : BitVec.ofNat 16 (s.pc.toNat + 2 * (k + 1)) = BitVec.ofNat 16 (s.pc.toNat + 2 * k) + 2#16 := by
    rw [← BitVec.ofNat_add, Nat.mul_succ, Nat.add_assoc]
  simp [State.slide, State.advance, State.setPc, State.emit, hpc, List.range_succ]

section Slide

variable {s : State} {k : Nat}

/-- Up to 0x1000 the sum that `pc` holds is exact. -/
theorem State.slide_pc_toNat (hend : s.pc.toNat + 2 * k ≤ 0x1000) : (s.slide k).pc.toNat = s.pc.toNat + 2 * k :=
  (BitVec.toNat_ofNat _ _).trans (Nat.mod_eq_of_lt (by omega))

variable (hrun : s.status = .running) (hzero : ∀ a, s.pc.toNat ≤ a → a ≤ 4095 → s.mem.read a = some 0x00#8)
include hrun hzero

theorem wordAtPc_slide (hend : s.pc.toNat + 2 * (k + 1) ≤ 0x1000) : WordAtPc (s.slide k) 0x0000#16 := by
  have hpc : (s.slide k).pc.toNat = s.pc.toNat + 2 * k := State.slide_pc_toNat (by omega)
  exact ⟨hrun, by omega, hzero _ (by omega) (by omega), hzero _ (by omega) (by omega)⟩

/-- While both bytes at `pc` lie in zero memory, each tick skips one more word 0x0000. -/
theorem afterTicks_eq_slide (hend : s.pc.toNat + 2 * k ≤ 0x1000) : afterTicks k s = .next (s.slide k) := by
  induction k with
  | zero => rw [State.slide_zero, afterTicks_zero]
  | succ k ih =>
    have hunknown : isUnknownWord 0x0000#16 = true := by decide
    rw [afterTicks_succ_eq_step (ih (by omega)), step_of_unknown_word (wordAtPc_slide hrun hzero hend) hunknown,
      State.slide_succ]

end Slide

/-- Settles O49: after `k` ticks the run stands at `s.slide k`; there a `pc` of 0x1000 cannot be fetched from, and the
fault records it as it is, since it is the lowest address above 4095. -/
theorem zeroMemorySlidesToFault : Obligations.ZeroMemorySlidesToFault := by
  intro k s hrun hend hzero
  have hslide := afterTicks_eq_slide hrun hzero hend
  refine ⟨s.slide k, rfl, hslide, fun hlast => ?_⟩
  have hpc : (s.slide k).pc.toNat = 0x1000 := (State.slide_pc_toNat hend).trans hlast
  have haddr : faultAddr (s.slide k).pc = 0x1000#16 := by rw [faultAddr, hpc, Nat.max_self]
  rw [afterTicks_succ_eq_step hslide, step_of_unfetchable (s := s.slide k) hrun (by omega), haddr]
  rfl

end Sys2Proof.Machine
end

section
/-! PROOFS of the statements on exceptions (spec 60_exceptions): the two ways a step faults, what each leaves, and a state
that its own step keeps. -/

namespace Sys2Proof.Machine

/-! ### The two faults of a step (R215, R218) -/

/-- The address a fault records for an access at `w`, as the number R215 gives. -/
theorem eq_faultAddr_iff {a w : Word} : a = faultAddr w ↔ a.toNat = max w.toNat 0x1000 := by
  rw [← BitVec.toNat_inj, faultAddr_toNat]

section Fault

variable {s t : State} {w : Word}

/-- A word of class 0xD whose sprite does not fit raises the sprite fault (R181). -/
theorem step_of_drw_word_of_not_fits (hw : WordAtPc s w) (hcls : w.extractLsb' 12 4 = 0xD#4)
    (hfits : ¬ SpriteFits s (w.extractLsb' 0 4)) :
    step s = .next (s.raiseFault .spriteReadOutOfRange (faultAddr s.i)) := by
  obtain ⟨-, -, -, -, -, hdrw, -⟩ := decodeByClass w _ rfl
  rw [step_of_wordAtPc hw, hdrw hcls]
  exact exec_drw_of_not_fits hfits

/-- A running engine's step that ends faulted raised the fetch fault, or the sprite fault on the word at `pc`. -/
theorem fault_cases_of_step (hrun : s.status = .running) (h : step s = .next t) (hfault : t.Faulted) :
    (0x0FFE < s.pc.toNat ∧ t = s.raiseFault .fetchOutOfRange (faultAddr s.pc)) ∨
    ∃ w, WordAtPc s w ∧ w.extractLsb' 12 4 = 0xD#4 ∧ ¬ SpriteFits s (w.extractLsb' 0 4) ∧
      t = s.raiseFault .spriteReadOutOfRange (faultAddr s.i) := by
  by_cases hpc : 0x0FFE < s.pc.toNat
  · exact .inl ⟨hpc, Host.Outcome.next.inj (h.symm.trans (step_of_unfetchable hrun hpc))⟩
  · obtain ⟨w, hw⟩ := exists_wordAtPc hrun (Nat.le_of_not_lt hpc)
    obtain ⟨c, a, hstatus⟩ := hfault
    cases stepOnWord_of_step hw h with
    | drwFault hcls hfits => exact .inr ⟨w, hw, hcls, hfits, rfl⟩
    | cls | jp | ldVxByte | addVxByte | ldI | drw | unknown => simp [hrun] at hstatus

end Fault

/-- Settles O13: a step that ends in one of the faults is that case of `fault_cases_of_step`; and where the condition of
a fault holds, the step is known and raises it. -/
theorem faultsExactlyOutOfRange : Obligations.FaultsExactlyOutOfRange := by
  intro s t a hrun h
  refine ⟨⟨fun hf => ?_, ?_⟩, ⟨fun hf => ?_, ?_⟩⟩
  · rcases fault_cases_of_step hrun h ⟨_, _, hf⟩ with ⟨hpc, rfl⟩ | ⟨_, _, _, _, rfl⟩ <;> cases hf
    exact ⟨hpc, faultAddr_toNat s.pc⟩
  · rintro ⟨hpc, ha⟩
    obtain rfl := Host.Outcome.next.inj ((step_of_unfetchable hrun hpc).symm.trans h)
    rw [eq_faultAddr_iff.mpr ha, State.raiseFault_status]
  · rcases fault_cases_of_step hrun h ⟨_, _, hf⟩ with ⟨_, rfl⟩ | ⟨w, hw, hcls, hfits, rfl⟩ <;> cases hf
    obtain ⟨hrows, hover⟩ := not_spriteFits_iff.mp hfits
    exact ⟨w, hw, hcls, hrows, hover, faultAddr_toNat s.i⟩
  · rintro ⟨w, hw, hcls, hrows, hover, ha⟩
    have hstep := step_of_drw_word_of_not_fits hw hcls (not_spriteFits_iff.mpr ⟨hrows, hover⟩)
    obtain rfl := Host.Outcome.next.inj (hstep.symm.trans h)
    rw [eq_faultAddr_iff.mpr ha, State.raiseFault_status]

/-- Settles O14: in both cases of `fault_cases_of_step` the next state is the old one with its fault raised, and the
status read from it names that fault. -/
theorem faultChangesOnlyStatus : Obligations.FaultChangesOnlyStatus := by
  intro s t c a hrun h hf
  rcases fault_cases_of_step hrun h ⟨c, a, hf⟩ with ⟨-, rfl⟩ | ⟨_, -, -, -, rfl⟩ <;> cases hf <;> rfl

/-! ### States that a step keeps (R217, R247) -/

/-- A state that its own step keeps is kept by any number of ticks. -/
theorem afterTicks_of_step_self {s : State} (h : step s = .next s) (k : Nat) : afterTicks k s = .next s := by
  induction k with
  | zero => exact afterTicks_zero s
  | succ k ih => exact (afterTicks_succ_of_step k h).trans ih

/-- Settles O15: the step keeps a faulted state, and so do any number of ticks. -/
theorem faultedMachineIsFrozen : Obligations.FaultedMachineIsFrozen := by
  rintro k s ⟨c, a, hf⟩
  exact afterTicks_of_step_self (step_of_faulted hf) k

end Sys2Proof.Machine
end

section
/-! PROOFS of the statements on reset and parking (spec 70_reset_and_hazards): the jump to itself as the only way to stay
in place, and the values after reset. -/

namespace Sys2Proof.Machine

/-! ### Parked states (R247) -/

/-- An address of at most 12 bits is the zero-extension of its low 12 bits. -/
theorem addrOperand_setWidth {a : Word} (h : a.toNat ≤ 0x0FFF) : addrOperand (a.setWidth 12) = a := by
  apply BitVec.eq_of_toNat_eq
  rw [addrOperand_toNat, BitVec.toNat_setWidth]
  exact Nat.mod_eq_of_lt (Nat.lt_succ_of_le h)

/-- A word of class 1 encodes the jump to its low 12 bits. -/
theorem encodeWord_jp_of_class {w : Word} (hcls : w.extractLsb' 12 4 = 0x1#4) :
    encodeWord (.jp (w.extractLsb' 0 12)) = w := by
  rw [encodeWord_jp, ← hcls, formatNNN_fields]

section Parked

variable {s : State}

/-- The word of the jump to `pc` steps to the state it stands in. -/
theorem parked_of_selfJump (hw : WordAtPc s (0x1000#16 ||| s.pc)) : s.Parked := by
  have htarget : addrOperand (s.pc.setWidth 12) = s.pc := addrOperand_setWidth (Nat.le_succ_of_le hw.inRange)
  have hjp : WordAtPc s (encodeWord (.jp (s.pc.setWidth 12))) := by
    rw [← htarget] at hw
    exact hw
  have hstep : step s = .next (s.setPc s.pc) := by rw [step_of_jp_word hjp, htarget]
  exact ⟨hw.running, hstep⟩

/-- At a higher `pc` the step would raise the fetch fault, and the state would not be running. -/
theorem State.Parked.pc_le (h : s.Parked) : s.pc.toNat ≤ 0x0FFE := by
  obtain ⟨hrun, hstep⟩ := h
  by_contra hpc
  have hfault := Host.Outcome.next.inj (hstep.symm.trans (step_of_unfetchable hrun (Nat.lt_of_not_le hpc)))
  rw [hfault, State.raiseFault_status] at hrun
  cases hrun

/-- The word at the `pc` of a parked state is a jump, since every other word advances `pc`, and its target is the `pc`
that the step leaves. -/
theorem selfJump_of_parked (h : s.Parked) : WordAtPc s (0x1000#16 ||| s.pc) := by
  have hle := h.pc_le
  obtain ⟨hrun, hstep⟩ := h
  obtain ⟨w, hw⟩ := exists_wordAtPc hrun hle
  have hpc := (stepOnWord_of_step hw hstep).pc_eq hrun
  split at hpc
  case isTrue hcls =>
    have hword : 0x1000#16 ||| s.pc = w := by
      rw [hpc]
      exact encodeWord_jp_of_class hcls
    exact hword ▸ hw
  case isFalse =>
    have hadvance := toNat_add_two hw.inRange
    rw [← hpc] at hadvance
    omega

end Parked

/-- Settles O50: the two directions above, and a state that its step keeps is kept by any number of ticks. -/
theorem parkedIffSelfJump : Obligations.ParkedIffSelfJump :=
  fun _ => ⟨⟨selfJump_of_parked, parked_of_selfJump⟩, fun ⟨_, hstep⟩ => afterTicks_of_step_self hstep⟩

/-! ### Reset (R240, R48) -/

/-- Settles O45: registers and stack are replicated zeros, the display is blank, and memory lists no byte. -/
theorem resetValues : Obligations.ResetValues := by
  rintro iReset _ rfl
  refine ⟨fun r => ?_, rfl, rfl, fun k => ?_, Display.get_blank, fun a ha => ?_, rfl⟩
  · simp
  · simp
  · exact Memory.read_eq_some (Nat.lt_succ_of_le ha)

end Sys2Proof.Machine
end
